-- ==== Sys2Proof/Word.lean ====
section
/-! DEFINITION. The word types of the TCPT (00_scope.md R8, R9; 30_encoding.md R61). -/

namespace Sys2Proof

/-- One byte: a bus register address, a bus data byte, a byte of L, a transport error code. -/
abbrev Byte := BitVec 8

/-- One command word on the command port (30_encoding.md R61). -/
abbrev Command := BitVec 64

end Sys2Proof
end

