-- ==== Sys2Proof/Syntax.lean ====
section
/-! DEFINITION. The six commands of spec/opcode_table.json with their operands
(30_encoding.md R62, R67). -/

namespace Sys2Proof

/-- One command: a row of the opcode table with its operands as the word gives them, neither
scaled nor extended (30_encoding.md R67). Each operand has exactly the width of its field, so
every term is a command the block can be given. -/
inductive Instr where
  /-- DECODE: RAW, the 16-bit temperature register value (R63). -/
  | decode (raw : BitVec 16)
  /-- ENCODE: MDEG, a 32-bit two's-complement number of millidegrees (R64). -/
  | encode (mdeg : BitVec 32)
  /-- PAGE_READ: OFFSET and COUNT (R65). -/
  | pageRead (offset : BitVec 10) (count : BitVec 11)
  /-- BULK_READ: OFFSET and COUNT (R65). -/
  | bulkRead (offset : BitVec 10) (count : BitVec 11)
  /-- INVALIDATE: no operand (R66). -/
  | invalidate
  /-- GET_PAGE: no operand (R66). -/
  | getPage
deriving DecidableEq, Repr

end Sys2Proof
end

