-- ==== Sys2Proof/WellFormed.lean ====
section
/-! DEFINITION. Well-formedness: the assembler's operand ranges (30_encoding.md R79).
The operands of `Instr` carry their bounds in their widths, so the check that can fail is the one on
an assembler line, whose operands are plain integers. -/

namespace Sys2Proof

/-- One line of the assembler syntax of 30_encoding.md R79: a mnemonic and its operands as the
integers written; only the operand of ENCODE may carry a minus sign. -/
inductive Asm where
  | decode (raw : Nat)
  | encode (mdeg : Int)
  | pageRead (offset count : Nat)
  | bulkRead (offset count : Nat)
  | invalidate
  | getPage
deriving DecidableEq, Repr

/-- Every operand is in the range R79 gives it. -/
def Asm.wellFormed : Asm → Bool
  | .decode raw => decide (raw ≤ 0xFFFF)
  | .encode mdeg => decide (-2 ^ 31 ≤ mdeg) && decide (mdeg ≤ 2 ^ 31 - 1)
  | .pageRead offset count => decide (offset ≤ 1023) && decide (count ≤ 2047)
  | .bulkRead offset count => decide (offset ≤ 1023) && decide (count ≤ 2047)
  | .invalidate => true
  | .getPage => true

/-- The command of a line, its operands cut to their fields. -/
def Asm.toInstr : Asm → Instr
  | .decode raw => .decode (BitVec.ofNat 16 raw)
  | .encode mdeg => .encode (BitVec.ofInt 32 mdeg)
  | .pageRead offset count => .pageRead (BitVec.ofNat 10 offset) (BitVec.ofNat 11 count)
  | .bulkRead offset count => .bulkRead (BitVec.ofNat 10 offset) (BitVec.ofNat 11 count)
  | .invalidate => .invalidate
  | .getPage => .getPage

/-- The assembler: it refuses a line with an operand outside its range (R79). -/
def Asm.assemble (a : Asm) : Option Instr :=
  if a.wellFormed then some a.toInstr else none

/-- The line that writes a command down: RAW, OFFSET and COUNT unsigned, MDEG signed (R67). -/
def Instr.toAsm : Instr → Asm
  | .decode raw => .decode raw.toNat
  | .encode mdeg => .encode mdeg.toInt
  | .pageRead offset count => .pageRead offset.toNat count.toNat
  | .bulkRead offset count => .bulkRead offset.toNat count.toNat
  | .invalidate => .invalidate
  | .getPage => .getPage

/-- A command is well-formed when its operands, as integers, are in the ranges of R79. -/
def Instr.wellFormed (i : Instr) : Bool := i.toAsm.wellFormed

end Sys2Proof
end

