-- ==== Sys2Proof/Decode.lean ====
section
/-! DEFINITION. The command decoder and, after it, the encoder (30_encoding.md R61 to R70, R79;
spec/opcode_table.json). -/

namespace Sys2Proof

/-! ### Fields of the command word (R61, R65, R67) -/

/-- OP, bits [63:60]. -/
def opField (w : Command) : BitVec 4 := w.extractLsb' 60 4
/-- RSVD, bits [59:32]. -/
def rsvdField (w : Command) : BitVec 28 := w.extractLsb' 32 28
/-- ARG, bits [31:0]; the operand MDEG of format M32 (R64). -/
def argField (w : Command) : BitVec 32 := w.extractLsb' 0 32
/-- ARG[31:16], zero in format T16 (R63). -/
def argAbove15 (w : Command) : BitVec 16 := w.extractLsb' 16 16
/-- ARG[31:21], zero in format OC (R65). -/
def argAbove20 (w : Command) : BitVec 11 := w.extractLsb' 21 11
/-- RAW, bits [15:0] (R63). -/
def rawField (w : Command) : BitVec 16 := w.extractLsb' 0 16
/-- OFFSET, bits [9:0] (R65). -/
def offsetField (w : Command) : BitVec 10 := w.extractLsb' 0 10
/-- COUNT, bits [20:10] (R65). -/
def countField (w : Command) : BitVec 11 := w.extractLsb' 10 11

/-! ### The decoder -/

/-- Why a word is illegal, by the clauses of R68. The block answers every one of them alike, with
ERR_ILLEGAL: the name is for the reader only. -/
inductive IllegalWord where
  /-- (a) OP is 0x0 or 0x7 to 0xF. -/
  | opcode
  /-- (b) RSVD is not zero. -/
  | reserved
  /-- (c) OP is DECODE and ARG[31:16] is not zero. -/
  | decodeArg
  /-- (d) OP is PAGE_READ or BULK_READ and ARG[31:21] is not zero. -/
  | readArg
  /-- (e) OP is INVALIDATE or GET_PAGE and ARG is not zero. -/
  | controlArg
deriving DecidableEq, Repr

/-- The command of a 64-bit word, or why it has none. Total (R70). -/
def decode (w : Command) : Except IllegalWord Instr :=
  if rsvdField w ≠ 0 then .error .reserved
  else match (opField w).toNat with
    | 1 => if argAbove15 w = 0 then .ok (.decode (rawField w)) else .error .decodeArg
    | 2 => .ok (.encode (argField w))
    | 3 => if argAbove20 w = 0 then .ok (.pageRead (offsetField w) (countField w)) else .error .readArg
    | 4 => if argAbove20 w = 0 then .ok (.bulkRead (offsetField w) (countField w)) else .error .readArg
    | 5 => if argField w = 0 then .ok .invalidate else .error .controlArg
    | 6 => if argField w = 0 then .ok .getPage else .error .controlArg
    | _ => .error .opcode

/-- A word is illegal, in the words of R68. -/
def illegalWord (w : Command) : Prop :=
  (opField w = 0 ∨ 7 ≤ (opField w).toNat)
  ∨ rsvdField w ≠ 0
  ∨ (opField w = 1 ∧ argAbove15 w ≠ 0)
  ∨ ((opField w = 3 ∨ opField w = 4) ∧ argAbove20 w ≠ 0)
  ∨ ((opField w = 5 ∨ opField w = 6) ∧ argField w ≠ 0)

/-! ### The opcode table (R70) -/

/-- One row of spec/opcode_table.json: a word belongs to it when `word & mask = bits`; `read` takes
the operands out of the word. -/
structure OpcodeRow where
  mnemonic : String
  bits : Command
  mask : Command
  read : Command → Instr

/-- spec/opcode_table.json, row by row. -/
def opcodeRows : List OpcodeRow :=
  [ ⟨"DECODE",     0x1000000000000000, 0xFFFFFFFFFFFF0000, fun w => .decode (rawField w)⟩,
    ⟨"ENCODE",     0x2000000000000000, 0xFFFFFFFF00000000, fun w => .encode (argField w)⟩,
    ⟨"PAGE_READ",  0x3000000000000000, 0xFFFFFFFFFFE00000, fun w => .pageRead (offsetField w) (countField w)⟩,
    ⟨"BULK_READ",  0x4000000000000000, 0xFFFFFFFFFFE00000, fun w => .bulkRead (offsetField w) (countField w)⟩,
    ⟨"INVALIDATE", 0x5000000000000000, 0xFFFFFFFFFFFFFFFF, fun _ => .invalidate⟩,
    ⟨"GET_PAGE",   0x6000000000000000, 0xFFFFFFFFFFFFFFFF, fun _ => .getPage⟩ ]

/-- The word satisfies the row's mask and match (R70). -/
def OpcodeRow.covers (r : OpcodeRow) (w : Command) : Bool := decide (w &&& r.mask = r.bits)

/-- The mnemonic of a command in spec/opcode_table.json. -/
def Instr.mnemonic : Instr → String
  | .decode _ => "DECODE"
  | .encode _ => "ENCODE"
  | .pageRead _ _ => "PAGE_READ"
  | .bulkRead _ _ => "BULK_READ"
  | .invalidate => "INVALIDATE"
  | .getPage => "GET_PAGE"

/-! ### The encoder -/

/-- The word of a command: OP, RSVD and ARG from the left (R61 to R66, R79). -/
def encode : Instr → Command
  | .decode raw => 0x1#4 ++ 0#28 ++ (0#16 ++ raw)
  | .encode mdeg => 0x2#4 ++ 0#28 ++ mdeg
  | .pageRead offset count => 0x3#4 ++ 0#28 ++ (0#11 ++ count ++ offset)
  | .bulkRead offset count => 0x4#4 ++ 0#28 ++ (0#11 ++ count ++ offset)
  | .invalidate => 0x5#4 ++ 0#28 ++ 0#32
  | .getPage => 0x6#4 ++ 0#28 ++ 0#32

/-! ### The host's access to the decoder -/

/-- The word of an opcode-table row: the low `nbits` bits of `w`, every bit above them 0. A command
is one 64-bit word on the command port, so bit 0 of the table is bit 0 of the word (R61, R78). -/
def tableWord (nbits w : Nat) : Command := BitVec.ofNat 64 (w % 2 ^ nbits)

/-- What the decoder reads from the bits of an opcode-table row. -/
def decodeTableWord (nbits w : Nat) : Option Instr :=
  match decode (tableWord nbits w) with
  | .ok i => some i
  | .error _ => none

end Sys2Proof
end

