-- ==== Sys2Proof/Config.lean ====
section
/-! DEFINITION. What an implementation fixes, and the values the spec leaves free. Nothing here has a
body: no proof can learn what these values are. -/

namespace Sys2Proof

/-- The two open parameters of the block (00_scope.md R8; 92_eei_decisions.md D6, D7). A window base
above 128 is not admitted. -/
structure Params where
  /-- P_PAGE_SEL_ADDR, the register address of the page-select register. -/
  pageSelAddr : Byte
  /-- P_WINDOW_BASE, the register address of byte 0 of the page window, 0 to 128. -/
  windowBase : Fin 129
deriving DecidableEq, Repr, Inhabited

/-- P_PAGE_SEL_ADDR and P_WINDOW_BASE of this block: open parameters, which a model takes as given
and must not choose (R8; 93 U15, G2). Log 1. -/
opaque Config.params : Params

/-- DEV_PAGE when the device is powered up: any of 0 to 7 (10_state.md R32; 93 U3). Log 3. -/
opaque Config.devPageAtPowerUp : BitVec 3

/-- The bytes of window reads whose command another master interleaved with: any value for every
byte (20_memory.md R57; 93 U8). The argument is the number of such bytes drawn before. Log 10. -/
opaque Config.freeByte : Nat → Byte

end Sys2Proof
end

