-- ==== Sys2Proof/Machine/State.lean ====
section
/-! DEFINITION. The state of one TCPT instance with its ports, its device and its pending inputs
(10_state.md R20, R28, R31, R32, R34; 30_encoding.md R71 to R77). Plain data. -/

namespace Sys2Proof.Machine

/-- FSM, the control state (10_state.md R24). -/
inductive Fsm where
  /-- IDLE: no command in progress; a command is accepted. -/
  | idle
  /-- SEL_WAIT: a page-select write is outstanding. -/
  | selWait
  /-- RD_WAIT: a window block read is outstanding. -/
  | rdWait
  /-- FAULT: stopped until reset. -/
  | fault
deriving DecidableEq, Repr

/-- MODE, which read command is in progress (10_state.md R25). -/
inductive Mode where
  /-- PAGE: a PAGE_READ. -/
  | page
  /-- BULK: a BULK_READ. -/
  | bulk
deriving DecidableEq, Repr

/-- FAULT_REASON (10_state.md R27). -/
inductive FaultReason where
  /-- NONE: FSM is not FAULT. -/
  | none
  /-- OVERLENGTH: a window read was answered with more bytes than it asked for. -/
  | overlength
deriving DecidableEq, Repr

/-- One request on the bus-master port, with the fields of 30_encoding.md R76. -/
inductive BusRequest where
  /-- PAGESEL: a single-byte write of WDATA to register ADDR. -/
  | pageSel (addr wdata : Byte)
  /-- WINREAD: a block read of LEN bytes from register ADDR up. -/
  | winRead (addr len : Byte)
deriving DecidableEq, Repr

/-- What the transport answers to a transaction (30_encoding.md R77). -/
inductive Answer where
  /-- Ok. To a WINREAD: at most `k` bytes were transferred, the bytes the device shows in its window
  (20_memory.md R44; `k` is the transport's draw, 41_page_access.md R99). -/
  | ok (k : Nat)
  /-- Ok, and a WINREAD transferred exactly these bytes, whatever the window shows: a transport or
  device of which R44 is not assumed, or one that breaks its contract (R77; 93 U5, U10). -/
  | okBytes (bs : List Byte)
  /-- Err(e), with an error code the block never interprets. -/
  | err (e : Byte)
deriving DecidableEq, Repr

/-- What stands on the block's input ports in one step, and what the rest of the world did. -/
structure Input where
  /-- rst is asserted (70_reset_and_hazards.md R134). -/
  rst : Bool := false
  /-- cmd_valid and the word on the command port (30_encoding.md R74). -/
  cmd : Option Command := none
  /-- A transport answer, with the number of the transaction it answers: the first one ever issued
  is 1. Log 7. -/
  resp : Option (Nat × Answer) := none
  /-- Another agent acted on the device just before this step's event, or the device's page changed
  for any other reason, a device reset among them (70_reset_and_hazards.md R139, R141). Log 10. -/
  outOfBand : Bool := false
  /-- The page DEV_PAGE takes in this step, read only where the spec leaves it open: after an
  out-of-band action (R139), a reset (10_state.md R32) and a failed or interleaved page select (93 U4,
  U8). Log 9. -/
  pageDraw : BitVec 3 := 0
deriving DecidableEq, Repr

/-- The memory L, as the cells whose byte is not the one an unlisted address reads as, addresses
strictly rising (20_memory.md R37). -/
abbrev Memory := List Host.Cell

/-- The machine's state. -/
structure State where
  /-- P_PAGE_SEL_ADDR and P_WINDOW_BASE, constant (00_scope.md R8). -/
  cfg : Params
  /-- CP_VALID: the current page is known (10_state.md R21). -/
  cpValid : Bool
  /-- CP_PAGE: the page last selected with success (R21). -/
  cpPage : BitVec 3
  /-- FSM (R24). -/
  fsm : Fsm
  /-- MODE (R25). -/
  mode : Mode
  /-- OFF: the linear offset where the current step reads (R25). -/
  off : BitVec 10
  /-- REM: how many bytes the command still asks for (R25). -/
  rem : BitVec 11
  /-- PG: the page of the current step (R25). -/
  pg : BitVec 3
  /-- N: the clamped length of the block read in progress (R25). -/
  n : BitVec 8
  /-- ACC: the bytes transferred so far by the command (R26). -/
  acc : List Byte
  /-- FAULT_REASON (R27). -/
  faultReason : FaultReason
  /-- RSP_STATUS, coded as 30_encoding.md R72 says (10_state.md R31). -/
  rspStatus : BitVec 4
  /-- RSP_VALUE (R31). -/
  rspValue : BitVec 32
  /-- RSP_TERR (R31). -/
  rspTerr : Byte
  /-- RSP_DATA (R31). -/
  rspData : List Byte
  /-- rsp_valid: the step just taken completed a command (30_encoding.md R75). -/
  rspValid : Bool
  /-- Every request put on the bus-master port, newest first (30_encoding.md R76; 60_exceptions.md
  R133). Its length numbers the newest one. Log 7. -/
  bus : List BusRequest
  /-- DEV_PAGE, the device's page-select register (10_state.md R32). -/
  devPage : BitVec 3
  /-- The contents of L (20_memory.md R37). -/
  mem : Memory
  /-- Another master has acted on the device during the command in progress (93 U8). Log 10. -/
  interleaved : Bool
  /-- How many free bytes have been drawn (93 U8). Log 10. -/
  draws : Nat
  /-- The inputs of the steps to come. Log 6. -/
  inputs : List Input
deriving DecidableEq, Repr

/-- Why the model stops with a fault. -/
inductive Fault where
  /-- The device was asked for a register that is neither the page-select register nor wholly in the
  page window: 20_memory.md R54 gives those registers no address. Raised by the device
  (Machine/Device.lean), only in states no run reaches. Safe: the model stops. Log 16. -/
  | unmappedRegister
deriving DecidableEq, Repr

/-- Why the model refuses an instruction. -/
inductive Refusal where
  /-- The instruction has no meaning yet. Raised by no arm. Safe: the model stops. -/
  | notModelled (mnemonic : String)
deriving DecidableEq, Repr

/-- The machine right after reset: 10_state.md R34 for the block; DEV_PAGE at power-up is free (93 U3),
no byte of L is listed, no input is pending. MODE, OFF, REM, PG and N are unspecified by R34: log 2. -/
def State.reset : State where
  cfg := Config.params
  cpValid := false
  cpPage := 0
  fsm := .idle
  mode := .page
  off := 0
  rem := 0
  pg := 0
  n := 0
  acc := []
  faultReason := .none
  rspStatus := 0
  rspValue := 0
  rspTerr := 0
  rspData := []
  rspValid := false
  bus := []
  devPage := Config.devPageAtPowerUp
  mem := []
  interleaved := false
  draws := 0
  inputs := []

end Sys2Proof.Machine
end

