-- ==== Sys2Proof/Machine/Flags.lean ====
section
/-! DEFINITION. The status outputs, the block's only flags: functions of FSM (10_state.md R28, R29). -/

namespace Sys2Proof.Machine

/-- cmd_ready: a command presented now is accepted (R28). -/
def State.cmdReady (s : State) : Bool := s.fsm == .idle

/-- busy: a read command is in progress (R28). -/
def State.busy (s : State) : Bool := s.fsm == .selWait || s.fsm == .rdWait

/-- bus_lock: exclusive use of the device's bus is claimed (R28; 20_memory.md R55). -/
def State.busLock (s : State) : Bool := s.fsm == .selWait || s.fsm == .rdWait

/-- fault: the block is stopped until reset (R28). -/
def State.faulted (s : State) : Bool := s.fsm == .fault

end Sys2Proof.Machine
end

