-- ==== Sys2Proof/Machine/Operands.lean ====
section
/-! DEFINITION. Address translation and the operands of the bus requests (20_memory.md R41 to R46;
30_encoding.md R76). -/

namespace Sys2Proof.Machine

/-- page(off) = off[9:7] (R41). -/
def pageOf (off : BitVec 10) : BitVec 3 := off.extractLsb' 7 3

/-- intra(off) = off[6:0] (R42). -/
def intraOf (off : BitVec 10) : BitVec 7 := off.extractLsb' 0 7

/-- winaddr(off) = P_WINDOW_BASE + intra(off), at most 255 (R43). -/
def winAddr (cfg : Params) (off : BitVec 10) : Byte :=
  BitVec.ofNat 8 (cfg.windowBase.val + (intraOf off).toNat)

/-- The clamp min(rem, 128 - intra(off)): how many bytes a step asks for (R45). -/
def clampLen (off : BitVec 10) (rem : BitVec 11) : BitVec 8 :=
  BitVec.ofNat 8 (min rem.toNat (128 - (intraOf off).toNat))

/-- The page-select write of page p: WDATA is p in bits [2:0], zeros above (R46). -/
def pageSelRequest (cfg : Params) (p : BitVec 3) : BusRequest :=
  .pageSel cfg.pageSelAddr (p.setWidth 8)

/-- The window read of `len` bytes at `off` (R43, R76). -/
def winReadRequest (cfg : Params) (off : BitVec 10) (len : BitVec 8) : BusRequest :=
  .winRead (winAddr cfg off) len

/-- The register value GET_PAGE reports: {CP_VALID, CP_PAGE}, CP_PAGE shown as 0 while it is not
valid (10_state.md R30; 42_page_cache_control.md R114). -/
def pageReport (cpValid : Bool) (cpPage : BitVec 3) : BitVec 32 :=
  (BitVec.ofBool cpValid ++ (if cpValid then cpPage else 0)).setWidth 32

end Sys2Proof.Machine
end

