-- ==== Sys2Proof/Machine/Ops.lean ====
section
/-! DEFINITION. The shared operations: memory, completion, FAULT, reset, issuing bus requests, and the
consumption of a step's input. -/

namespace Sys2Proof.Machine

open Host (Outcome)

/-! ### The memory L (20_memory.md R37) -/

/-- What an address of L that no cell lists reads as. Log 4. -/
def unlistedByte : Byte := 0

/-- The byte of L at a linear offset. -/
def Memory.read : Memory → Nat → Byte
  | [], _ => unlistedByte
  | (a, b) :: m, x => if a = x then b else Memory.read m x

/-- L with one byte put in place. The block has no write path into L (R37): this is how the world
outside it fills the device. -/
def Memory.write : Memory → Nat → Byte → Memory
  | [], x, v => if v = unlistedByte then [] else [(x, v)]
  | (a, b) :: m, x, v =>
    if x < a then (if v = unlistedByte then (a, b) :: m else (x, v) :: (a, b) :: m)
    else if a = x then (if v = unlistedByte then m else (x, v) :: m)
    else (a, b) :: Memory.write m x v

/-- The addresses of the cells rise strictly, from `lo` on. -/
def Memory.risingFrom : Nat → Memory → Bool
  | _, [] => true
  | lo, (a, _) :: m => decide (lo ≤ a) && Memory.risingFrom (a + 1) m

/-- The canonical form: addresses strictly rising and below 1024, no cell that an unlisted address
would read the same as. -/
def Memory.wf (m : Memory) : Bool :=
  Memory.risingFrom 0 m && m.all (fun c => decide (c.1 < 1024) && decide (c.2 ≠ unlistedByte))

/-- The bytes of L at offsets `first` to `first + count - 1`. -/
def Memory.slice (m : Memory) (first count : Nat) : List Byte :=
  (List.range count).map (fun i => Memory.read m (first + i))

/-! ### Completion (00_scope.md R13; 10_state.md R31; 30_encoding.md R72, R75) -/

/-- The response statuses the block produces (30_encoding.md R72). -/
inductive Status where
  | ok
  | errTransport
  | errIllegal
  | errRange
deriving DecidableEq, Repr

/-- The code of a status in RSP_STATUS (R72). -/
def statusCode : Status → BitVec 4
  | .ok => 0x0
  | .errTransport => 0x1
  | .errIllegal => 0x2
  | .errRange => 0x3

/-- `complete`: load the response registers, raise rsp_valid, return to IDLE. -/
def complete (st : Status) (value : BitVec 32) (data : List Byte) (terr : Byte) (s : State) : State :=
  { s with rspStatus := statusCode st, rspValue := value, rspTerr := terr, rspData := data,
           rspValid := true, fsm := .idle }

/-- The completion of every command that succeeds. -/
def completeOk (value : BitVec 32) (data : List Byte) (s : State) : State :=
  complete .ok value data 0 s

/-- A failed transaction ends its command: ACC is discarded and the error code is passed on
(41_page_access.md R98, R101; 60_exceptions.md R118). -/
def completeTransportError (e : Byte) (s : State) : State :=
  complete .errTransport 0 [] e { s with acc := [] }

/-- An illegal word: a response and no other effect (30_encoding.md R68; 60_exceptions.md R119). -/
def completeIllegal (s : State) : State := complete .errIllegal 0 [] 0 s

/-- A BULK_READ outside the 1024 bytes (41_page_access.md R110; 60_exceptions.md R120). -/
def completeRange (s : State) : State := complete .errRange 0 [] 0 s

/-- A command is accepted in IDLE only; presented in any other state it has no effect, and the host
holds it (30_encoding.md R74). Log 12. -/
def whenReady (s : State) (effect : State → State) : Outcome State Fault Refusal :=
  .next (if s.cmdReady then effect s else s)

/-! ### FAULT and reset: the block's one exception and the one way back -/

/-- `raise Fault(OVERLENGTH)`: the sticky FAULT state, no response (41_page_access.md R102;
60_exceptions.md R124). -/
def raiseFault (s : State) : State := { s with fsm := .fault, faultReason := .overlength }

/-- The registers of the block at their reset values (70_reset_and_hazards.md R134; 10_state.md R34).
Nothing outside the block is reset (R137). The values of MODE, OFF, REM, PG and N: log 2. -/
def resetBlock (s : State) : State :=
  { s with cpValid := false, cpPage := 0, fsm := .idle, mode := .page, off := 0, rem := 0, pg := 0,
           n := 0, acc := [], faultReason := .none, rspStatus := 0, rspValue := 0, rspTerr := 0,
           rspData := [], rspValid := false, interleaved := false }

/-! ### Issuing bus requests (41_page_access.md R96, R97) -/

/-- The cache names page `p`; an unknown page equals none (R96). -/
def State.cpNames (s : State) (p : BitVec 3) : Bool := s.cpValid && s.cpPage == p

/-- Issue the window read of the current step: N <- clamp, WINREAD, FSM <- RD_WAIT. -/
def issueWinRead (s : State) : State :=
  { s with n := clampLen s.off s.rem,
           bus := winReadRequest s.cfg s.off (clampLen s.off s.rem) :: s.bus, fsm := .rdWait }

/-- Issue the page select of the current step: PAGESEL of PG, FSM <- SEL_WAIT. -/
def issuePageSel (s : State) : State :=
  { s with bus := pageSelRequest s.cfg s.pg :: s.bus, fsm := .selWait }

/-- StepIssue: PG <- page(OFF), then the window read if the cache names that page, else the page
select (R96). -/
def stepIssue (s : State) : State :=
  if s.cpNames (pageOf s.off) then issueWinRead { s with pg := pageOf s.off }
  else issuePageSel { s with pg := pageOf s.off }

/-- The first step of a read command: set the sequencer, ACC <- [], StepIssue (R94, R95). No master
has interleaved with it yet. -/
def startRead (mode : Mode) (offset : BitVec 10) (count : BitVec 11) (s : State) : State :=
  stepIssue { s with mode := mode, off := offset, rem := count, acc := [], interleaved := false }

/-! ### The input of a step -/

/-- A step at which nothing stands on any port. -/
def quietInput : Input := {}

/-- The input of the coming step; with none left, a quiet one. -/
def State.headInput (s : State) : Input := s.inputs.headD quietInput

/-- `count` bytes with no law, the next ones not drawn before (93 U8). -/
def freeBytes (drawn count : Nat) : List Byte :=
  (List.range count).map (fun i => Config.freeByte (drawn + i))

/-- Another agent acts on the device (70_reset_and_hazards.md R139): DEV_PAGE becomes the input's
draw. If the block holds bus_lock (R141), every byte of the command in progress is from then on any
value, those already in ACC too (20_memory.md R57; 93 U8). The spec says this of another master only. That a
change of the device's page for any other reason while bus_lock is 1 (R139: a device reset) is treated
in the same way is the model's own: DESIGN CHOICE, safe, log 10. -/
def actOutOfBand (inp : Input) (s : State) : State :=
  if inp.outOfBand then
    if s.busLock then
      { s with devPage := inp.pageDraw, interleaved := true,
               acc := freeBytes s.draws s.acc.length, draws := s.draws + s.acc.length }
    else { s with devPage := inp.pageDraw }
  else s

/-- Take the coming step's input off the list: rsp_valid falls, and what other agents did on the
device happens before the block's own event. -/
def State.consume (s : State) : State :=
  actOutOfBand s.headInput { s with inputs := s.inputs.tail, rspValid := false }

/-- The word the block accepts in this step, if any: one is presented, FSM is IDLE and rst is not
asserted (30_encoding.md R74; 60_exceptions.md R126). -/
def acceptedWord (inp : Input) (s : State) : Option Command :=
  if !inp.rst && s.cmdReady then inp.cmd else none

end Sys2Proof.Machine
end

