-- ==== Sys2Proof/Machine/Access.lean ====
section
/-! DEFINITION. Page access: PAGE_READ, BULK_READ and the block's reactions to the answers of the
transport (41_page_access.md). -/

namespace Sys2Proof.Machine

open Host (Outcome)

/-- PAGE_READ (R94; COUNT = 0 by R109). -/
def execPageRead (offset : BitVec 10) (count : BitVec 11) (s : State) : Outcome State Fault Refusal :=
  whenReady s fun s =>
    if count = 0 then completeOk 0 [] s
    else startRead .page offset count s

/-- BULK_READ (R95; the limits in the order of R110). -/
def execBulkRead (offset : BitVec 10) (count : BitVec 11) (s : State) : Outcome State Fault Refusal :=
  whenReady s fun s =>
    if count = 0 then completeOk 0 [] s
    else if 1024 < offset.toNat + count.toNat then completeRange s
    else startRead .bulk offset count s

/-- The page select succeeded: the cache takes PG, and the window read follows (R97). -/
def onSelectOk (s : State) : State := issueWinRead { s with cpValid := true, cpPage := s.pg }

/-- The page select failed: the command ends, the cache is left as it is (R98). -/
def onSelectErr (e : Byte) (s : State) : State := completeTransportError e s

/-- The window read failed: the command ends, the cache is left as it is (R101). -/
def onReadErr (e : Byte) (s : State) : State := completeTransportError e s

/-- The window read transferred `bytes`, which ACC takes in either mode (10_state.md R26): R99 in PAGE
mode, R100 and R103 in BULK mode. More bytes than asked for break the transport's contract, and ACC
stays as it is (R102; log 14). -/
def onReadOk (bytes : List Byte) (s : State) : State :=
  if s.n.toNat < bytes.length then raiseFault s
  else
    let all := s.acc ++ bytes
    match s.mode with
    | .page => completeOk (BitVec.ofNat 32 bytes.length) bytes { s with acc := all }
    | .bulk =>
      let left := s.rem.toNat - bytes.length
      if left = 0 then completeOk (BitVec.ofNat 32 all.length) all { s with acc := all }
      else stepIssue { s with acc := all, off := s.off + BitVec.ofNat 10 bytes.length,
                              rem := BitVec.ofNat 11 left }

end Sys2Proof.Machine
end

