-- ==== Sys2Proof/Machine/Device.lean ====
section
/-! DEFINITION. The transport and the device behind the bus-master port (20_memory.md R38, R40, R44, R46,
R47, R53; 10_state.md R32; 93 U3 to U10), and the events of a step other than the acceptance of a
command (41_page_access.md R93; 60_exceptions.md R126; 70_reset_and_hazards.md R134, R135). -/

namespace Sys2Proof.Machine

open Host (Outcome)

/-- The outstanding transaction: the newest request, while FSM waits for its answer (20_memory.md
R56). -/
def State.outstanding (s : State) : Option BusRequest :=
  match s.fsm, s.bus with
  | .selWait, .pageSel addr wdata :: _ => some (.pageSel addr wdata)
  | .rdWait, .winRead addr len :: _ => some (.winRead addr len)
  | _, _ => none

/-- The answer of this step that the block heeds: one to its outstanding transaction. Every other
answer is ignored (41_page_access.md R93; 70_reset_and_hazards.md R135). Log 7. -/
def answerFor (inp : Input) (s : State) : Option (BusRequest × Answer) :=
  match s.outstanding, inp.resp with
  | some req, some (k, ans) => if k = s.bus.length then some (req, ans) else none
  | _, _ => none

/-- The page the device is on after it took a write of `wdata` to the page-select register: the index
in bits [2:0] (20_memory.md R46, R53; log 19). While another master interleaves it is the input's
draw (93 U8). -/
def pageAfterSelect (inp : Input) (wdata : Byte) (s : State) : BitVec 3 :=
  if s.interleaved then inp.pageDraw else wdata.setWidth 3

/-- Registers `addr` to `addr + len - 1` all lie in the page window (20_memory.md R38). -/
def inWindow (cfg : Params) (addr len : Byte) : Bool :=
  decide (cfg.windowBase.val ≤ addr.toNat) && decide (addr.toNat + len.toNat ≤ cfg.windowBase.val + 128)

/-- The window law: the first `count` bytes of page DEV_PAGE from the window register `addr` up, in
ascending address order (20_memory.md R44, R47). -/
def windowBytes (addr : Byte) (count : Nat) (s : State) : List Byte :=
  Memory.slice s.mem (128 * s.devPage.toNat + (addr.toNat - s.cfg.windowBase.val)) count

/-- The device answers a window read by the window law with at most `k` of the `len` bytes asked for;
with any bytes at all while another master interleaves (20_memory.md R57; 93 U8). -/
def deliver (addr len : Byte) (k : Nat) (s : State) : Outcome State Fault Refusal :=
  let count := min k len.toNat
  if s.interleaved then
    .next (onReadOk (freeBytes s.draws count) { s with draws := s.draws + count })
  else if inWindow s.cfg addr len then .next (onReadOk (windowBytes addr count s) s)
  else .fault .unmappedRegister

/-- The answer `ans` to the outstanding request `req` (41_page_access.md R97 to R103). After a failed
page select DEV_PAGE is the input's draw (93 U4). A success answer to a write carries no bytes. -/
def onAnswer (inp : Input) (req : BusRequest) (ans : Answer) (s : State) : Outcome State Fault Refusal :=
  match req, ans with
  | .pageSel _ _, .err e => .next (onSelectErr e { s with devPage := inp.pageDraw })
  | .pageSel addr wdata, _ =>
    if addr = s.cfg.pageSelAddr then
      .next (onSelectOk { s with devPage := pageAfterSelect inp wdata s })
    else .fault .unmappedRegister
  | .winRead _ _, .err e => .next (onReadErr e s)
  | .winRead _ _, .okBytes bytes => .next (onReadOk bytes s)
  | .winRead addr len, .ok k => deliver addr len k s

/-- rst is asserted: the block is reset whatever its state and the command in progress is abandoned
(70_reset_and_hazards.md R134, R135). Reset does not reach the device, and where DEV_PAGE is after it is
a draw (10_state.md R32; R137; 93 U3, U4). Log 9. -/
def onReset (inp : Input) (s : State) : State := resetBlock { s with devPage := inp.pageDraw }

/-- The event of a step that accepts no command: reset before all else (60_exceptions.md R126), then
an answer to the outstanding transaction, else nothing. -/
def onEvent (inp : Input) (s : State) : Outcome State Fault Refusal :=
  if inp.rst then .next (onReset inp s)
  else match answerFor inp s with
    | some (req, ans) => onAnswer inp req ans s
    | none => .next s

end Sys2Proof.Machine
end

