-- ==== Sys2Proof/Machine/CacheControl.lean ====
section
/-! DEFINITION. Page-cache control: INVALIDATE and GET_PAGE (42_page_cache_control.md). -/

namespace Sys2Proof.Machine

open Host (Outcome)

/-- INVALIDATE (R113): CP_VALID <- 0; CP_PAGE is left as it is. -/
def execInvalidate (s : State) : Outcome State Fault Refusal :=
  whenReady s fun s => completeOk 0 [] { s with cpValid := false }

/-- GET_PAGE (R114): report {CP_VALID, CP_PAGE}. -/
def execGetPage (s : State) : Outcome State Fault Refusal :=
  whenReady s fun s => completeOk (pageReport s.cpValid s.cpPage) [] s

end Sys2Proof.Machine
end

