-- ==== Sys2Proof/Machine/Codec.lean ====
section
/-! DEFINITION. The temperature codec: DECODE and ENCODE (40_codec.md). -/

namespace Sys2Proof.Machine

open Host (Outcome)

/-- TEMP_UNIT: millidegrees per step (00_scope.md R6). -/
def tempUnit : Int := 250
/-- T_MIN in millidegrees (R6). -/
def tempMin : Int := -256000
/-- T_MAX in millidegrees (R6). -/
def tempMax : Int := 255750

/-- `clamp` of 00_scope.md R10. -/
def clamp (v lo hi : Int) : Int := min (max v lo) hi

/-- `tdecode`: 250 times the signed 11-bit field RAW[12:2] (40_codec.md R81; 90_conflicts.md C1). -/
def tdecode (raw : BitVec 16) : Int := tempUnit * (raw.extractLsb' 2 11).toInt

/-- `tencode`: clamp, divide by 250 truncating toward zero, keep 11 bits, shift left by 2
(R83, R84; 90_conflicts.md C2). -/
def tencode (m : Int) : BitVec 16 :=
  ((BitVec.ofInt 11 ((clamp m tempMin tempMax).tdiv tempUnit)).setWidth 16) <<< 2

/-- DECODE (R85): RSP_VALUE is tdecode(RAW) as 32-bit two's complement. -/
def execDecode (raw : BitVec 16) (s : State) : Outcome State Fault Refusal :=
  whenReady s (completeOk (BitVec.ofInt 32 (tdecode raw)) [])

/-- ENCODE (R86): RSP_VALUE is tencode of the signed operand, zero-extended. -/
def execEncode (mdeg : BitVec 32) (s : State) : Outcome State Fault Refusal :=
  whenReady s (completeOk ((tencode mdeg.toInt).setWidth 32) [])

end Sys2Proof.Machine
end

