-- ==== Sys2Proof/Machine/Dispatch.lean ====
section
/-! DEFINITION. One arm per command (30_encoding.md R62). -/

namespace Sys2Proof.Machine

open Host (Outcome)

def exec (i : Instr) (s : State) : Outcome State Fault Refusal :=
  match i with
  | .decode raw => Sys2Proof.Machine.execDecode raw s
  | .encode mdeg => Sys2Proof.Machine.execEncode mdeg s
  | .pageRead offset count => Sys2Proof.Machine.execPageRead offset count s
  | .bulkRead offset count => Sys2Proof.Machine.execBulkRead offset count s
  | .invalidate => Sys2Proof.Machine.execInvalidate s
  | .getPage => Sys2Proof.Machine.execGetPage s

end Sys2Proof.Machine
end

