-- ==== Sys2Proof/Machine/Step.lean ====
section
/-! DEFINITION. One step: one event at the block (70_reset_and_hazards.md R145; 60_exceptions.md R126). -/

namespace Sys2Proof.Machine

open Host (Outcome)

/-- One step: the input of the step is consumed; a word accepted in it is decoded and executed, or
completes ERR_ILLEGAL if it is illegal (30_encoding.md R68, R74); otherwise the step is a reset, an
answer of the transport, or nothing. -/
def step (s : State) : Outcome State Fault Refusal :=
  match acceptedWord s.headInput s.consume with
  | some w =>
    match decode w with
    | .ok i => exec i s.consume
    | .error _ => .next (completeIllegal s.consume)
  | none => onEvent s.headInput s.consume

/-- `s` with the word of an opcode-table row on the command port of its next step, and the block ready
to accept it. Log 6. -/
def State.withFetchWord (s : State) (nbits w : Nat) : State :=
  { s with fsm := .idle, inputs := { cmd := some (tableWord nbits w) } :: s.inputs }

end Sys2Proof.Machine
end

