-- ==== Sys2Proof/Safety.lean ====
section
/-! DEFINITION. What counts as a good state and a lawful environment, in the terms the statements use
(60_exceptions.md R124; 70_reset_and_hazards.md R139 to R141; 20_memory.md R44, R55). -/

namespace Sys2Proof.Machine

/-- A final state of a run may be called good: the block is not in FAULT (60_exceptions.md R124). -/
def State.good (s : State) : Bool := !s.faulted

/-- A bus request of one of the two shapes R76 allows: the select of some page, or a window read of 1
to 128 bytes that stays within its page (30_encoding.md R76; 41_page_access.md R107). -/
def legalRequest (cfg : Params) (r : BusRequest) : Prop :=
  (∃ p, r = pageSelRequest cfg p)
  ∨ ∃ off len, r = winReadRequest cfg off len ∧ 1 ≤ len.toNat ∧ (intraOf off).toNat + len.toNat ≤ 128

/-- What holds of every state the block can be in. -/
structure Inv (s : State) : Prop where
  /-- L keeps its canonical form. -/
  memWf : Memory.wf s.mem = true
  /-- Only the codes 0x0 to 0x3 are produced (30_encoding.md R72; 93 U13). -/
  status : s.rspStatus.toNat ≤ 3
  /-- An error carries no value and no data (30_encoding.md R73). -/
  errorEmpty : s.rspStatus ≠ statusCode .ok → s.rspValue = 0 ∧ s.rspData = []
  /-- RSP_TERR is 0 but for a transport error (10_state.md R31). -/
  terr : s.rspStatus ≠ statusCode .errTransport → s.rspTerr = 0
  /-- RSP_DATA has at most 1024 bytes (30_encoding.md R71). -/
  dataLength : s.rspData.length ≤ 1024
  /-- ACC has at most 1024 bytes (10_state.md R20). -/
  accLength : s.acc.length ≤ 1024
  /-- FAULT_REASON names a cause exactly in FAULT (10_state.md R27). -/
  faultReason : s.fsm = .fault ↔ s.faultReason = .overlength
  /-- A completion leaves the block in IDLE (60_exceptions.md R128). -/
  rspValid : s.rspValid = true → s.fsm = .idle
  /-- Every request ever issued is legal. -/
  requests : ∀ r ∈ s.bus, legalRequest s.cfg r
  /-- SEL_WAIT: the outstanding transaction selects the step's page, which the cache does not name. -/
  selWait : s.fsm = .selWait → s.pg = pageOf s.off ∧ s.cpNames s.pg = false ∧ 1 ≤ s.rem.toNat
    ∧ s.bus.head? = some (pageSelRequest s.cfg s.pg)
  /-- RD_WAIT: the outstanding transaction is the clamped window read of the step, whose page the
  cache names. -/
  rdWait : s.fsm = .rdWait → s.pg = pageOf s.off ∧ s.cpNames s.pg = true ∧ 1 ≤ s.rem.toNat
    ∧ s.n = clampLen s.off s.rem ∧ s.bus.head? = some (winReadRequest s.cfg s.off s.n)
  /-- A bulk read stays within the 1024 bytes of L (41_page_access.md R100, R110). -/
  bulk : s.busLock = true → s.mode = .bulk →
    s.off.toNat + s.rem.toNat ≤ 1024 ∧ s.acc.length ≤ s.off.toNat
  /-- A single-page read has transferred nothing before its one window read (R94). -/
  page : s.busLock = true → s.mode = .page → s.acc = []

/-- The cache agrees with the device: CP_VALID = 1 implies DEV_PAGE = CP_PAGE (10_state.md R23). The
block cannot enforce it. -/
def synced (s : State) : Prop := s.cpValid = true → s.devPage = s.cpPage

/-- An input under which the obligations of R139 to R141 are kept and the window law of R44 is obeyed:
no reset, no out-of-band action, no answer with bytes of the transport's own. -/
def Input.lawful (inp : Input) : Prop :=
  inp.rst = false ∧ inp.outOfBand = false ∧ ∀ k bs, inp.resp ≠ some (k, .okBytes bs)

/-- The word `w` is accepted in the step from `s` (30_encoding.md R74). -/
def accepts (s : State) (w : Command) : Prop :=
  s.headInput.rst = false ∧ s.fsm = .idle ∧ s.headInput.cmd = some w

/-- The newest transaction is answered with `ans` in the step from `s`. -/
def answered (s : State) (ans : Answer) : Prop :=
  s.headInput.rst = false ∧ s.headInput.resp = some (s.bus.length, ans)

/-- How many bytes a success answer to the window read in progress transfers. -/
def transferred (s : State) : Answer → Option Nat
  | .ok k => some (min k s.n.toNat)
  | .okBytes bs => some bs.length
  | .err _ => none

/-- A step in which the block issues a transaction (41_page_access.md R111): it accepts a read of at
least one byte that is not refused, its page select succeeds, or a window read of a bulk read
succeeds and leaves bytes to read. -/
def issuePoint (s : State) : Prop :=
  (∃ off cnt, accepts s (encode (.pageRead off cnt)) ∧ cnt ≠ 0)
  ∨ (∃ off cnt, accepts s (encode (.bulkRead off cnt)) ∧ cnt ≠ 0 ∧ off.toNat + cnt.toNat ≤ 1024)
  ∨ (s.fsm = .selWait ∧ ∃ ans, answered s ans ∧ ∀ e, ans ≠ .err e)
  ∨ (s.fsm = .rdWait ∧ s.mode = .bulk ∧ ∃ ans k, answered s ans ∧ transferred s ans = some k
      ∧ k ≤ s.n.toNat ∧ k < s.rem.toNat)

/-- The first step of a read of `cnt` bytes at `off`, written out: the sequencer is set, and the
window read is issued if the cache names the page, else the page select. -/
def firstReadStep (mode : Mode) (off : BitVec 10) (cnt : BitVec 11) (s : State) : State :=
  let len := BitVec.ofNat 8 (min cnt.toNat (128 - off.toNat % 128))
  if s.cpValid = true ∧ s.cpPage.toNat = off.toNat / 128 then
    { s with mode := mode, off := off, rem := cnt, pg := BitVec.ofNat 3 (off.toNat / 128), n := len, acc := [],
             interleaved := false, fsm := .rdWait,
             bus := .winRead (BitVec.ofNat 8 (s.cfg.windowBase.val + off.toNat % 128)) len :: s.bus }
  else
    { s with mode := mode, off := off, rem := cnt, pg := BitVec.ofNat 3 (off.toNat / 128), acc := [],
             interleaved := false, fsm := .selWait,
             bus := .pageSel s.cfg.pageSelAddr (BitVec.ofNat 8 (off.toNat / 128)) :: s.bus }

/-- An input that answers transaction `number`, and on which nothing else happens. -/
def answerInput (number : Nat) (ans : Answer) : Input := { resp := some (number, ans) }

/-- An input that presents the word of a command, and on which nothing else happens. -/
def commandInput (i : Instr) : Input := { cmd := some (encode i) }

/-- `count` inputs that answer the transactions from number `first` on, each with every byte asked
for. -/
def fullAnswers (first count : Nat) : List Input :=
  (List.range count).map (fun j => answerInput (first + j) (.ok 128))

/-- A request is a window read. -/
def BusRequest.isWinRead : BusRequest → Bool
  | .winRead _ _ => true
  | .pageSel _ _ => false

/-- `count` steps from `s`, with the machine's own state type. -/
def run (count : Nat) (s : State) : Host.Outcome State Fault Refusal := Sys2Proof.core.run count s

/-- `t` is the state in which the command accepted in the first step from `s` completes: the first
state after `s`, `m + 1` steps on, in which rsp_valid is raised. -/
def completesAfter (m : Nat) (s t : State) : Prop :=
  run (m + 1) s = .next t ∧ t.rspValid = true
  ∧ ∀ j u, j < m → run (j + 1) s = .next u → u.rspValid = false

end Sys2Proof.Machine
end

