-- ==== Sys2Proof/Certificates/Slice0/Obligations.lean ====
section
/-! DEFINITION. The statements about the model, for the provers. In them `s.consume` is `s` with the
step's input taken off the list: rsp_valid falls, and DEV_PAGE, ACC and the model's own fields change
only if the input says that another agent acted (the model's choice: log 6, log 10). -/

open Sys2Proof Sys2Proof.Machine
open Host (Outcome)

/-! ### The command word -/

/-- Decoding the word of a command gives the command back, for every operand (30_encoding.md R61 to
R67). -/
def Obligations.DecodeOfEncode : Prop := ∀ i : Instr, decode (encode i) = .ok i

/-- No bit of a legal word is dropped: it is the word of the command it decodes to (R70, R78). -/
def Obligations.EncodeOfDecode : Prop := ∀ (w : Command) (i : Instr), decode w = .ok i → encode i = w

/-- R70: at most one row of the opcode table has a given word, a word that no row has is illegal, and
the command decoded is the one of the row selected. -/
def Obligations.DecodeSelectsTheUniqueTableRow : Prop :=
  ∀ w : Command,
    (∀ r ∈ opcodeRows, ∀ r' ∈ opcodeRows, r.covers w = true → r'.covers w = true → r.mnemonic = r'.mnemonic)
    ∧ ((∀ r ∈ opcodeRows, r.covers w = false) ↔ illegalWord w)
    ∧ ∀ i, decode w = .ok i ↔ ∃ r ∈ opcodeRows, r.covers w = true ∧ r.read w = i

/-- The assembler gives each of the six lines the word of R79, refuses an operand outside its range, and never
makes an illegal word. -/
def Obligations.AssemblerMakesTheWordsOfTheTable : Prop :=
  (∀ raw : Nat, raw ≤ 0xFFFF →
    (Asm.decode raw).assemble.map (fun i => (encode i).toNat) = some (0x1 * 2 ^ 60 + raw))
  ∧ (∀ mdeg : Int, -2 ^ 31 ≤ mdeg → mdeg ≤ 2 ^ 31 - 1 →
    (Asm.encode mdeg).assemble.map (fun i => (encode i).toNat) = some (0x2 * 2 ^ 60 + (mdeg % 2 ^ 32).toNat))
  ∧ (∀ offset count : Nat, offset ≤ 1023 → count ≤ 2047 →
    (Asm.pageRead offset count).assemble.map (fun i => (encode i).toNat) = some (0x3 * 2 ^ 60 + count * 2 ^ 10 + offset)
    ∧ (Asm.bulkRead offset count).assemble.map (fun i => (encode i).toNat) = some (0x4 * 2 ^ 60 + count * 2 ^ 10 + offset))
  ∧ Asm.invalidate.assemble.map (fun i => (encode i).toNat) = some (0x5 * 2 ^ 60)
  ∧ Asm.getPage.assemble.map (fun i => (encode i).toNat) = some (0x6 * 2 ^ 60)
  ∧ (∀ a : Asm, a.wellFormed = false → a.assemble = none)
  ∧ ∀ (a : Asm) (i : Instr), a.assemble = some i → ¬ illegalWord (encode i)

/-- Words written out from the encoding tables decode to the commands they stand for: one of each
family. -/
def Obligations.WordsOfEachFamilyDecode : Prop :=
  decode 0x1000000000000190 = .ok (.decode 0x0190)
  ∧ decode 0x20000000FFFFFED4 = .ok (.encode (BitVec.ofInt 32 (-300)))
  ∧ decode 0x300000000001925A = .ok (.pageRead 602 100)
  ∧ decode 0x4000000000019064 = .ok (.bulkRead 100 100)
  ∧ decode 0x5000000000000000 = .ok .invalidate
  ∧ decode 0x6000000000000000 = .ok .getPage

/-! ### One step and the acceptance of a command -/

/-- A step in IDLE that finds a legal word on the command port runs the command it decodes to, on the
state with the step's input consumed. -/
def Obligations.StepRunsTheDecodedCommand : Prop :=
  ∀ (s : State) (w : Command) (i : Instr), accepts s w → decode w = .ok i → i.wellFormed = true →
    step s = exec i s.consume
    ∧ (s.headInput.outOfBand = false → s.consume = { s with inputs := s.inputs.tail, rspValid := false })

/-- An illegal word is accepted and completes ERR_ILLEGAL in the same step; nothing but the response
changes (30_encoding.md R68; 60_exceptions.md R119). -/
def Obligations.IllegalWordCompletesErrIllegal : Prop :=
  ∀ (s : State) (w : Command), accepts s w → illegalWord w →
    step s = .next { s.consume with rspStatus := 0x2, rspValue := 0, rspTerr := 0, rspData := [], rspValid := true }

/-- A command is accepted only in IDLE, an answer matters only in SEL_WAIT or RD_WAIT, and reset takes
precedence over both: what else stands on the ports makes no difference to the step
(60_exceptions.md R126). That a command presented outside IDLE has no effect at all, the last clause,
is read from R74 by inference: log 12. -/
def Obligations.OneEventPerStep : Prop :=
  ∀ (s : State) (inp : Input) (rest : List Input), s.inputs = inp :: rest →
    (inp.rst = true → ∀ c a, step s = step { s with inputs := { inp with cmd := c, resp := a } :: rest })
    ∧ (s.fsm ≠ .selWait → s.fsm ≠ .rdWait → ∀ a, step s = step { s with inputs := { inp with resp := a } :: rest })
    ∧ (s.fsm ≠ .idle → ∀ c, step s = step { s with inputs := { inp with cmd := c } :: rest })
    ∧ (s.fsm ≠ .idle → ∀ i : Instr, exec i s = .next s)

/-- An answer to no outstanding transaction, or no answer at all, leaves the block as it is: a
waiting command is neither completed nor cancelled (41_page_access.md R93; 70_reset_and_hazards.md
R135, R147). Which transaction an answer belongs to is said by its number: the model's choice,
log 7. -/
def Obligations.StrayAnswersAreIgnored : Prop :=
  ∀ s : State, s.headInput.rst = false → (s.fsm = .idle → s.headInput.cmd = none) →
    (s.busLock = true → ∀ ans, s.headInput.resp ≠ some (s.bus.length, ans)) →
    step s = .next s.consume
    ∧ (s.headInput.outOfBand = false → s.consume = { s with inputs := s.inputs.tail, rspValid := false })

/-! ### The codec -/

/-- DECODE completes OK with 250 times the signed field RAW[12:2], and changes only the response
(40_codec.md R81, R85). -/
def Obligations.DecodeReportsMillidegrees : Prop :=
  ∀ (s : State) (raw : BitVec 16), s.fsm = .idle →
    exec (.decode raw) s = .next { s with
      rspStatus := 0x0, rspValue := BitVec.ofInt 32 (250 * (raw.extractLsb' 2 11).toInt), rspTerr := 0,
      rspData := [], rspValid := true }

/-- ENCODE completes OK with the clamped, truncated count of 250 millidegrees in bits [12:2], and
changes only the response (R83, R86). -/
def Obligations.EncodeReportsRegisterValue : Prop :=
  ∀ (s : State) (mdeg : BitVec 32), s.fsm = .idle →
    ∃ field : BitVec 11, field = BitVec.ofInt 11 ((min (max mdeg.toInt (-256000)) 255750).tdiv 250)
      ∧ exec (.encode mdeg) s = .next { s with
          rspStatus := 0x0, rspValue := BitVec.ofNat 32 (4 * field.toNat), rspTerr := 0, rspData := [],
          rspValid := true }

/-- RAW[15:13] and RAW[1:0] never matter, and an arithmetic and a logical shift give the same
(R82). -/
def Obligations.TdecodeIgnoresUnusedBits : Prop :=
  ∀ raw : BitVec 16,
    tdecode raw = tdecode (raw &&& 0x1FFC)
    ∧ (raw.sshiftRight 2).extractLsb' 0 11 = raw.extractLsb' 2 11
    ∧ (raw >>> 2).extractLsb' 0 11 = raw.extractLsb' 2 11
    ∧ tdecode raw = 250 * ((raw.sshiftRight 2).setWidth 11).toInt
    ∧ tdecode raw = (250 : Int) * ((raw >>> 2).setWidth 11).toInt

/-- tdecode yields the multiples of 250 from -256000 to 255750, all of them (R87). -/
def Obligations.TdecodeRange : Prop :=
  (∀ raw : BitVec 16, ∃ k : Int, tdecode raw = 250 * k ∧ -1024 ≤ k ∧ k ≤ 1023 ∧ k = (raw.extractLsb' 2 11).toInt)
  ∧ ∀ k : Int, -1024 ≤ k → k ≤ 1023 → ∃ raw, tdecode raw = 250 * k

/-- Decoding a register value and encoding it again gives its field back (R88). -/
def Obligations.RegisterRoundTrip : Prop :=
  ∀ raw : BitVec 16, tencode (tdecode raw) = raw &&& 0x1FFC
    ∧ (tencode (tdecode raw)).extractLsb' 2 11 = raw.extractLsb' 2 11

/-- Encoding millidegrees and decoding again gives the clamped and truncated value, the same value
exactly for the multiples of 250 in range (R89). -/
def Obligations.MillidegreeRoundTrip : Prop :=
  ∀ m : Int, tdecode (tencode m) = 250 * (clamp m (-256000) 255750).tdiv 250
    ∧ (tdecode (tencode m) = m ↔ -256000 ≤ m ∧ m ≤ 255750 ∧ ∃ k, m = 250 * k)

/-- The error of an encoding has the sign of the clamped value and a magnitude below 250: truncation
is toward zero (R84). -/
def Obligations.TencodeTruncatesTowardZero : Prop :=
  ∀ m : Int, let c := clamp m (-256000) 255750; let r := tdecode (tencode m)
    (0 ≤ c → 0 ≤ c - r ∧ c - r < 250 ∧ 0 ≤ r) ∧ (c ≤ 0 → c - r ≤ 0 ∧ -250 < c - r ∧ r ≤ 0)
    ∧ r = 250 * c.tdiv 250 ∧ tdecode (tencode (-300)) = -250

/-- Bits [15:13] and [1:0] of an encoding are zero (R90). -/
def Obligations.TencodeShape : Prop :=
  ∀ m : Int, tencode m &&& 0xE003 = 0 ∧ ∃ f : BitVec 11, tencode m = (f.setWidth 16) <<< 2

/-- Encoding then decoding is non-decreasing, and constant outside the range (R91). -/
def Obligations.CodecIsMonotone : Prop :=
  (∀ m m' : Int, m ≤ m' → tdecode (tencode m) ≤ tdecode (tencode m'))
  ∧ (∀ m : Int, m ≤ -256000 → tdecode (tencode m) = -256000)
  ∧ ∀ m : Int, 255750 ≤ m → tdecode (tencode m) = 255750

/-- The response of DECODE and of ENCODE is a function of the command alone, and they write nothing
else (R92). -/
def Obligations.CodecIsPure : Prop :=
  ∀ i : Instr, (∃ raw, i = .decode raw) ∨ (∃ mdeg, i = .encode mdeg) →
    ∃ value : BitVec 32, ∀ s : State, s.fsm = .idle →
      exec i s = .next { s with
        rspStatus := 0x0, rspValue := value, rspTerr := 0, rspData := [], rspValid := true }

/-! ### Page-cache control -/

/-- INVALIDATE clears CP_VALID, leaves CP_PAGE, and completes OK (42_page_cache_control.md R113). -/
def Obligations.InvalidateClearsTheCache : Prop :=
  ∀ s : State, s.fsm = .idle →
    exec .invalidate s = .next { s with
      cpValid := false, rspStatus := 0x0, rspValue := 0, rspTerr := 0, rspData := [], rspValid := true }

/-- GET_PAGE reports 8 + CP_PAGE when the cache is valid and 0 when it is not, and changes only the
response (R114). -/
def Obligations.GetPageReportsTheCache : Prop :=
  ∀ s : State, s.fsm = .idle →
    exec .getPage s = .next { s with
      rspStatus := 0x0, rspValue := (if s.cpValid then BitVec.ofNat 32 (8 + s.cpPage.toNat) else 0),
      rspTerr := 0, rspData := [], rspValid := true }

/-- Unless a window read is being answered, the device's page makes no difference to the block: no
other step reads DEV_PAGE (R116; 10_state.md R32). -/
def Obligations.BlockDoesNotSeeTheDevicePage : Prop :=
  ∀ (s t : State) (d : BitVec 3), s.fsm ≠ .rdWait → step s = .next t →
    ∃ d', step { s with devPage := d } = .next { t with devPage := d' }

/-- With CP_VALID = 0 every read command begins with a page select, a failed one leaves the cache
invalid, and a successful one makes it name the selected page (R115). -/
def Obligations.InvalidCacheForcesSelect : Prop :=
  (∀ (s : State) (off : BitVec 10) (cnt : BitVec 11), s.fsm = .idle → s.cpValid = false → cnt ≠ 0 →
    (∃ t, exec (.pageRead off cnt) s = .next t ∧ t.fsm = .selWait ∧ t.cpValid = false
      ∧ t.bus = pageSelRequest s.cfg (pageOf off) :: s.bus)
    ∧ (off.toNat + cnt.toNat ≤ 1024 → ∃ t, exec (.bulkRead off cnt) s = .next t ∧ t.fsm = .selWait
      ∧ t.cpValid = false ∧ t.bus = pageSelRequest s.cfg (pageOf off) :: s.bus))
  ∧ ∀ (s : State), Inv s → s.fsm = .selWait →
    (∀ e, answered s (.err e) → ∃ t, step s = .next t ∧ t.cpValid = s.cpValid)
    ∧ ∀ ans, answered s ans → (∀ e, ans ≠ .err e) →
        ∃ t, step s = .next t ∧ t.cpValid = true ∧ t.cpPage = s.pg

/-! ### Address translation -/

/-- Page, intra-page offset and window address as arithmetic; the two parts rebuild the offset, and
the address does not wrap (20_memory.md R41, R42, R43). -/
def Obligations.AddressTranslation : Prop :=
  ∀ (cfg : Params) (off : BitVec 10),
    pageOf off = off.extractLsb' 7 3 ∧ (pageOf off).toNat = off.toNat / 128
    ∧ intraOf off = off.extractLsb' 0 7 ∧ (intraOf off).toNat = off.toNat % 128
    ∧ off.toNat = 128 * (pageOf off).toNat + (intraOf off).toNat ∧ off = pageOf off ++ intraOf off
    ∧ (winAddr cfg off).toNat = cfg.windowBase.val + (intraOf off).toNat ∧ (winAddr cfg off).toNat ≤ 255

/-- The clamp: what a step asks for, within its page, 1 to 128 bytes for rem of at least 1 (R45). -/
def Obligations.PageBoundaryClamp : Prop :=
  ∀ (off : BitVec 10) (rem : BitVec 11),
    (clampLen off rem).toNat = min rem.toNat (128 - (intraOf off).toNat)
    ∧ (intraOf off).toNat + (clampLen off rem).toNat ≤ 128
    ∧ (1 ≤ rem.toNat → 1 ≤ (clampLen off rem).toNat ∧ (clampLen off rem).toNat ≤ 128)

/-! ### Read commands: acceptance -/

/-- A PAGE_READ of no bytes completes OK at once; it issues nothing and leaves the cache and the
sequencer as they are (41_page_access.md R109). -/
def Obligations.PageReadOfNothing : Prop :=
  ∀ (s : State) (off : BitVec 10), s.fsm = .idle →
    exec (.pageRead off 0) s = .next { s with
      rspStatus := 0x0, rspValue := 0, rspTerr := 0, rspData := [], rspValid := true }

/-- A PAGE_READ of at least one byte is accepted and issues its first transaction; nothing else
changes (R94, R96). -/
def Obligations.PageReadIssuesItsFirstTransaction : Prop :=
  ∀ (s : State) (off : BitVec 10) (cnt : BitVec 11), s.fsm = .idle → cnt ≠ 0 →
    exec (.pageRead off cnt) s = .next (firstReadStep .page off cnt s)

/-- A BULK_READ and its limits, in their order: no bytes completes OK, a read past byte 1023 completes
ERR_RANGE, both with nothing issued and nothing but the response changed; any other is accepted and
issues its first transaction (R110; 60_exceptions.md R120). -/
def Obligations.BulkReadLimits : Prop :=
  ∀ (s : State) (off : BitVec 10) (cnt : BitVec 11), s.fsm = .idle →
    (cnt = 0 → exec (.bulkRead off cnt) s = .next { s with
      rspStatus := 0x0, rspValue := 0, rspTerr := 0, rspData := [], rspValid := true })
    ∧ (cnt ≠ 0 → 1024 < off.toNat + cnt.toNat → exec (.bulkRead off cnt) s = .next { s with
      rspStatus := 0x3, rspValue := 0, rspTerr := 0, rspData := [], rspValid := true })
    ∧ (cnt ≠ 0 → off.toNat + cnt.toNat ≤ 1024 →
      exec (.bulkRead off cnt) s = .next (firstReadStep .bulk off cnt s))

/-! ### Read commands: the answers -/

/-- A page select that succeeds: the cache takes PG, the window read of the step is issued, FSM goes
to RD_WAIT, and the device is on that page (R97; 20_memory.md R53). While another master interleaves,
the page is the input's draw: the model's choice, log 10. -/
def Obligations.SelectSucceeded : Prop :=
  ∀ (s : State) (ans : Answer), Inv s → s.fsm = .selWait → answered s ans → (∀ e, ans ≠ .err e) →
    step s = .next { s.consume with
      cpValid := true, cpPage := s.pg, n := clampLen s.off s.rem, fsm := .rdWait,
      devPage := (if s.consume.interleaved then s.headInput.pageDraw else s.pg),
      bus := .winRead (winAddr s.cfg s.off) (clampLen s.off s.rem) :: s.bus }

/-- A page select that fails: ERR_TRANSPORT with the code unchanged, ACC discarded, no window read,
CP_VALID and CP_PAGE not written (R98). Where the device is left is open (93 U4): the input's draw, the
model's choice, log 9. -/
def Obligations.SelectFailed : Prop :=
  ∀ (s : State) (e : Byte), Inv s → s.fsm = .selWait → answered s (.err e) →
    step s = .next { s.consume with
      acc := [], rspStatus := 0x1, rspValue := 0, rspTerr := e, rspData := [], rspValid := true, fsm := .idle,
      devPage := s.headInput.pageDraw }

/-- A window read in PAGE mode that transfers k ≤ N bytes completes OK with k and those bytes (R99),
which ACC takes too (10_state.md R26). That ACC still holds them after the completion is the model's
choice, log 14. -/
def Obligations.PageReadCompletes : Prop :=
  ∀ (s : State) (bytes : List Byte), Inv s → s.fsm = .rdWait → s.mode = .page →
    answered s (.okBytes bytes) → bytes.length ≤ s.n.toNat →
    step s = .next { s.consume with
      acc := s.consume.acc ++ bytes, rspStatus := 0x0, rspValue := BitVec.ofNat 32 bytes.length, rspTerr := 0,
      rspData := bytes,
      rspValid := true, fsm := .idle }

/-- A window read in BULK mode that transfers k ≤ N bytes: with REM - k = 0 the command completes OK
with all of ACC; otherwise OFF and REM advance by k and the next step is issued (R100; 10_state.md R26).
That ACC still holds its bytes after the completion is the model's choice, log 14. -/
def Obligations.BulkReadAdvances : Prop :=
  ∀ (s : State) (bytes : List Byte), Inv s → s.fsm = .rdWait → s.mode = .bulk → answered s (.okBytes bytes) →
    bytes.length ≤ s.n.toNat →
    (bytes.length = s.rem.toNat → step s = .next { s.consume with
      acc := s.consume.acc ++ bytes, rspStatus := 0x0, rspValue := BitVec.ofNat 32 (s.acc.length + bytes.length),
      rspTerr := 0, rspData := s.consume.acc ++ bytes, rspValid := true, fsm := .idle })
    ∧ (bytes.length ≠ s.rem.toNat → ∃ off rem,
        off.toNat = s.off.toNat + bytes.length ∧ rem.toNat = s.rem.toNat - bytes.length
        ∧ step s = .next (stepIssue { s.consume with acc := s.consume.acc ++ bytes, off := off, rem := rem }))

/-- A window read the device answers by the window law transfers the bytes of page DEV_PAGE that its
registers show, in ascending order, at most as many as asked for (20_memory.md R44, R47). The two
forms of an answer are the model's, log 8. While another master interleaves, such an answer transfers
the same number of bytes, and they are the next free bytes: the model's choice, log 10. -/
def Obligations.WindowReadObeysTheWindowLaw : Prop :=
  ∀ (s : State) (k : Nat), Inv s → s.fsm = .rdWait → answered s (.ok k) →
    ∃ bytes : List Byte, bytes.length = min k s.n.toNat ∧
      let told := step { s with inputs := { s.headInput with resp := some (s.bus.length, .okBytes bytes) } :: s.inputs.tail }
      (s.consume.interleaved = false →
        (∀ j, j < bytes.length → bytes[j]? = some (Memory.read s.mem (128 * s.consume.devPage.toNat + s.off.toNat % 128 + j)))
        ∧ step s = told)
      ∧ (s.consume.interleaved = true →
        bytes = freeBytes s.consume.draws (min k s.n.toNat)
        ∧ ∃ t, told = .next t ∧ step s = .next { t with draws := s.consume.draws + bytes.length })

/-- A window read that fails, in either mode: ERR_TRANSPORT with the code unchanged, ACC discarded,
CP_VALID and CP_PAGE kept (R101). -/
def Obligations.WindowReadFailed : Prop :=
  ∀ (s : State) (e : Byte), Inv s → s.fsm = .rdWait → answered s (.err e) →
    step s = .next { s.consume with
      acc := [], rspStatus := 0x1, rspValue := 0, rspTerr := e, rspData := [], rspValid := true, fsm := .idle }

/-- A window read answered with more than N bytes: FAULT with reason OVERLENGTH, no response, nothing
else written (R102). That ACC keeps its bytes in FAULT is the model's choice, log 14. -/
def Obligations.OverlengthAnswerFaults : Prop :=
  ∀ (s : State) (bytes : List Byte), Inv s → s.fsm = .rdWait → answered s (.okBytes bytes) →
    s.n.toNat < bytes.length →
    step s = .next { s.consume with fsm := .fault, faultReason := .overlength }

/-- A zero-byte transfer in BULK mode issues the same window read again, with OFF, REM and ACC as
they are (R103). -/
def Obligations.ZeroByteTransferRepeatsTheRead : Prop :=
  ∀ (s : State), Inv s → s.fsm = .rdWait → s.mode = .bulk → answered s (.okBytes []) →
    step s = .next { s.consume with bus := .winRead (winAddr s.cfg s.off) s.n :: s.bus }

/-- Zero-byte answers for ever are a hang: however many steps, the command is still in RD_WAIT
(R103; 70_reset_and_hazards.md R146). -/
def Obligations.ZeroByteAnswersNeverComplete : Prop :=
  ∀ (s : State) (m : Nat), Inv s → s.fsm = .rdWait → s.mode = .bulk → s.rspValid = false →
    s.inputs = (List.range m).map (fun j => answerInput (s.bus.length + j) (.ok 0)) →
    ∃ t, run m s = .next t ∧ t.fsm = .rdWait ∧ t.rspValid = false
      ∧ t.off = s.off ∧ t.rem = s.rem ∧ t.acc = s.acc ∧ t.bus.length = s.bus.length + m

/-! ### FAULT and reset -/

/-- FAULT is entered only by an over-length window answer, is sticky, takes no command, ignores every
answer, and is left only by reset; it is never a good state (60_exceptions.md R124). -/
def Obligations.FaultIsStickyUntilReset : Prop :=
  (∀ s t : State, Inv s → step s = .next t → s.fsm ≠ .fault → t.fsm = .fault →
    s.fsm = .rdWait ∧ t.faultReason = .overlength ∧ ∃ bytes, answered s (.okBytes bytes) ∧ s.n.toNat < bytes.length)
  ∧ (∀ s : State, s.fsm = .fault → s.headInput.rst = false →
    step s = .next s.consume ∧ s.consume.fsm = .fault ∧ s.consume.bus = s.bus ∧ s.consume.rspValid = false)
  ∧ (∀ s : State, s.fsm = .fault →
    s.cmdReady = false ∧ s.busy = false ∧ s.busLock = false ∧ s.faulted = true ∧ s.good = false)
  ∧ ∀ s : State, s.fsm = .fault → s.headInput.rst = true →
    ∃ t, step s = .next t ∧ t.fsm = .idle ∧ t.faultReason = .none

/-- Reset gives every register its reset value whatever the state, issues nothing and raises no
rsp_valid; the machine right after reset holds the same values (70_reset_and_hazards.md R134;
10_state.md R34). Nothing outside the block is reset (R137). -/
def Obligations.ResetLeavesTheResetValues : Prop :=
  (∀ s : State, s.headInput.rst = true → ∃ t, step s = .next t
    ∧ t.cpValid = false ∧ t.cpPage = 0 ∧ t.fsm = .idle ∧ t.acc = [] ∧ t.faultReason = .none
    ∧ t.rspStatus = 0 ∧ t.rspValue = 0 ∧ t.rspTerr = 0 ∧ t.rspData = [] ∧ t.rspValid = false
    ∧ t.cmdReady = true ∧ t.busy = false ∧ t.busLock = false ∧ t.faulted = false
    ∧ t.bus = s.bus ∧ t.mem = s.mem ∧ t.cfg = s.cfg)
  ∧ State.reset.cpValid = false ∧ State.reset.cpPage = 0 ∧ State.reset.fsm = .idle ∧ State.reset.acc = []
  ∧ State.reset.faultReason = .none ∧ State.reset.rspStatus = 0 ∧ State.reset.rspValue = 0
  ∧ State.reset.rspTerr = 0 ∧ State.reset.rspData = [] ∧ State.reset.rspValid = false
  ∧ State.reset.cmdReady = true ∧ State.reset.busy = false ∧ State.reset.busLock = false
  ∧ State.reset.faulted = false

/-! ### Rules over every step -/

/-- The invariant holds after reset. -/
def Obligations.InvariantAtReset : Prop := Inv State.reset

/-- From every state with the invariant a step answers a next state, and it has the invariant. -/
def Obligations.EveryStepKeepsTheInvariant : Prop :=
  ∀ s : State, Inv s → ∃ t, step s = .next t ∧ Inv t

/-- Only three events write CP_VALID and CP_PAGE, and they write them so; a failed transaction leaves
both (10_state.md R22). -/
def Obligations.OnlyThreeEventsWriteTheCache : Prop :=
  ∀ s t : State, Inv s → step s = .next t →
    ((s.headInput.rst = true ∧ t.cpValid = false)
      ∨ (accepts s (encode .invalidate) ∧ t.cpValid = false ∧ t.cpPage = s.cpPage)
      ∨ (s.fsm = .selWait ∧ (∃ ans, answered s ans ∧ ∀ e, ans ≠ .err e) ∧ t.cpValid = true ∧ t.cpPage = s.pg)
      ∨ (t.cpValid = s.cpValid ∧ t.cpPage = s.cpPage))
    ∧ (s.headInput.rst = true → t.cpValid = false)
    ∧ (accepts s (encode .invalidate) → t.cpValid = false)
    ∧ (s.fsm = .selWait → ∀ ans, answered s ans → (∀ e, ans ≠ .err e) → t.cpValid = true ∧ t.cpPage = s.pg)
    ∧ (s.busLock = true → ∀ e, answered s (.err e) → t.cpValid = s.cpValid ∧ t.cpPage = s.cpPage)

/-- FSM changes only as the table of R93 says, or by reset. -/
def Obligations.FsmMovesOnlyByTheTable : Prop :=
  ∀ s t : State, Inv s → step s = .next t → s.headInput.rst = false → t.fsm ≠ s.fsm →
    (s.fsm = .idle ∧ (t.fsm = .selWait ∨ t.fsm = .rdWait) ∧ ∃ off cnt, cnt ≠ 0
      ∧ (accepts s (encode (.pageRead off cnt))
        ∨ (accepts s (encode (.bulkRead off cnt)) ∧ off.toNat + cnt.toNat ≤ 1024)))
    ∨ (s.fsm = .selWait ∧ t.fsm = .rdWait ∧ ∃ ans, answered s ans ∧ ∀ e, ans ≠ .err e)
    ∨ (s.fsm = .selWait ∧ t.fsm = .idle ∧ ∃ e, answered s (.err e))
    ∨ (s.fsm = .rdWait ∧ t.fsm = .idle ∧ ∃ e, answered s (.err e))
    ∨ (s.fsm = .rdWait ∧ t.fsm = .idle ∧ ∃ ans k, answered s ans ∧ transferred s ans = some k ∧ k ≤ s.n.toNat
        ∧ (s.mode = .page ∨ k = s.rem.toNat))
    ∨ (s.fsm = .rdWait ∧ t.fsm = .selWait ∧ s.mode = .bulk ∧ ∃ ans k, answered s ans
        ∧ transferred s ans = some k ∧ k ≤ s.n.toNat ∧ k < s.rem.toNat)
    ∨ (s.fsm = .rdWait ∧ t.fsm = .fault ∧ ∃ ans k, answered s ans ∧ transferred s ans = some k ∧ s.n.toNat < k)

/-- A bus transaction is issued in exactly the steps R111 names, and each issues exactly one. -/
def Obligations.TransactionsAreIssuedOnlyAtIssuePoints : Prop :=
  ∀ s t : State, Inv s → step s = .next t →
    (issuePoint s → ∃ r, t.bus = r :: s.bus) ∧ (¬ issuePoint s → t.bus = s.bus)

/-- Every window read issued stays within its page and asks for 1 to 128 bytes (R107). -/
def Obligations.NoWindowReadCrossesAPage : Prop :=
  ∀ (s t : State) (addr len : Byte), Inv s → step s = .next t → t.bus = .winRead addr len :: s.bus →
    ∃ off : BitVec 10, addr = winAddr s.cfg off ∧ (intraOf off).toNat + len.toNat ≤ 128
      ∧ 1 ≤ len.toNat ∧ len.toNat ≤ 128

/-- The response registers keep their values until a completion or reset, and rsp_valid is raised in a
step that held bus_lock exactly when that step ends the command in IDLE (10_state.md R31;
30_encoding.md R75). -/
def Obligations.ResponseIsHeldUntilCompletion : Prop :=
  ∀ s t : State, step s = .next t → s.headInput.rst = false →
    (t.rspValid = false → t.rspStatus = s.rspStatus ∧ t.rspValue = s.rspValue ∧ t.rspTerr = s.rspTerr
      ∧ t.rspData = s.rspData)
    ∧ (t.rspValid = true → t.fsm = .idle ∧ (s.busLock = true ∨ ∃ w, accepts s w))
    ∧ (s.busLock = true → (t.rspValid = true ↔ t.fsm = .idle))

/-- After a completion with an error status the block is in IDLE and accepts the next command
(60_exceptions.md R123). -/
def Obligations.NoErrorIsFatal : Prop :=
  ∀ s t : State, step s = .next t → t.rspValid = true → t.rspStatus ≠ 0 →
    t.fsm = .idle ∧ t.cmdReady = true
    ∧ ∀ (i : Instr) (rest : List Input), t.inputs = commandInput i :: rest →
        step t = exec i { t with inputs := rest, rspValid := false }

/-- bus_lock rises only in a step that issues a command's first transaction, and falls only in one that
completes the command, faults or resets (20_memory.md R55). In every state each of the four status
outputs is the function of FSM that 10_state.md R28 gives. -/
def Obligations.BusLockCoversTheWholeRead : Prop :=
  (∀ s t : State, Inv s → step s = .next t →
    (s.busLock = false → t.busLock = true → s.fsm = .idle ∧ ∃ r, t.bus = r :: s.bus)
    ∧ (s.busLock = true → t.busLock = false → t.rspValid = true ∨ t.fsm = .fault ∨ s.headInput.rst = true))
  ∧ ∀ s : State,
    (s.busLock = true ↔ s.fsm = .selWait ∨ s.fsm = .rdWait)
    ∧ (s.busy = true ↔ s.fsm = .selWait ∨ s.fsm = .rdWait)
    ∧ (s.cmdReady = true ↔ s.fsm = .idle)
    ∧ (s.faulted = true ↔ s.fsm = .fault)

/-- No step changes the parameters or a byte of L: the block has no write path into it (20_memory.md
R37; 10_state.md R30). -/
def Obligations.NoStepWritesMemoryOrParameters : Prop :=
  ∀ s t : State, step s = .next t →
    t.cfg = s.cfg ∧ t.mem = s.mem ∧ ∀ a, Memory.read t.mem a = Memory.read s.mem a

/-- After a failed transaction nothing more is issued for the command. A PAGE_READ whose select failed
selects again when it is retried, and so does a BULK_READ of the bytes still wanted: the command itself,
if its first select failed, since OFF and REM are then its operands (R112). -/
def Obligations.ErrorsAreNotRetried : Prop :=
  ∀ (s : State) (e : Byte), Inv s → s.busLock = true → answered s (.err e) →
    ∃ t, step s = .next t ∧ t.bus = s.bus ∧ t.fsm = .idle ∧ t.rspStatus = 0x1 ∧ t.rspTerr = e
      ∧ (s.fsm = .selWait → s.mode = .page → ∃ u, exec (.pageRead s.off s.rem) t = .next u
          ∧ u.fsm = .selWait ∧ u.bus = pageSelRequest s.cfg s.pg :: s.bus)
      ∧ (s.fsm = .selWait → s.mode = .bulk → ∃ u, exec (.bulkRead s.off s.rem) t = .next u
          ∧ u.fsm = .selWait ∧ u.bus = pageSelRequest s.cfg s.pg :: s.bus)

/-- The bytes a command reads while another master interleaves with it depend neither on L nor on
DEV_PAGE, and from the interleaving on the bytes read before no longer count (20_memory.md R57; 93 U8).
That they are free bytes of Config is the model's choice, log 10. -/
def Obligations.InterleavedReadsAreUnconstrained : Prop :=
  (∀ (s t : State) (m : Memory) (d : BitVec 3), s.busLock = true → s.interleaved = true → step s = .next t →
    ∃ t', step { s with mem := m, devPage := d } = .next t' ∧ t'.rspData = t.rspData ∧ t'.acc = t.acc)
  ∧ ∀ (s t : State) (m : Memory) (d : BitVec 3) (acc : List Byte), s.busLock = true →
    s.headInput.outOfBand = true → acc.length = s.acc.length → step s = .next t →
    ∃ t', step { s with mem := m, devPage := d, acc := acc } = .next t'
      ∧ t'.rspData = t.rspData ∧ t'.acc = t.acc

/-! ### Whole read commands -/

/-- A BULK_READ ends all or nothing: with an error status it presents no data, with OK exactly COUNT
bytes (R104). -/
def Obligations.BulkReadIsAllOrNothing : Prop :=
  ∀ (s t : State) (off : BitVec 10) (cnt : BitVec 11) (m : Nat),
    accepts s (encode (.bulkRead off cnt)) → (∀ inp ∈ s.inputs, inp.rst = false) → completesAfter m s t →
    (t.rspStatus ≠ 0 → t.rspValue = 0 ∧ t.rspData = [])
    ∧ (t.rspStatus = 0 → t.rspData.length = cnt.toNat ∧ t.rspValue.toNat = cnt.toNat)

/-- A BULK_READ that ends OK under the obligations of R55 and R139 and the window law returns the bytes
of L at OFFSET to OFFSET + COUNT - 1 (R108; 20_memory.md R48). -/
def Obligations.BulkReadReturnsTheReferenceBytes : Prop :=
  ∀ (s t : State) (off : BitVec 10) (cnt : BitVec 11) (m : Nat),
    synced s → accepts s (encode (.bulkRead off cnt)) → (∀ inp ∈ s.inputs, inp.lawful) →
    completesAfter m s t → t.rspStatus = 0 →
    t.rspData = Memory.slice s.mem off.toNat cnt.toNat

/-- A PAGE_READ that ends OK under the same obligations returns a prefix of the bytes of L from OFFSET
to the end of its page, at most COUNT of them, and reports how many (R94; 20_memory.md R48). -/
def Obligations.PageReadReturnsAReferencePrefix : Prop :=
  ∀ (s t : State) (off : BitVec 10) (cnt : BitVec 11) (m : Nat),
    synced s → accepts s (encode (.pageRead off cnt)) → (∀ inp ∈ s.inputs, inp.lawful) →
    completesAfter m s t → t.rspStatus = 0 →
    ∃ k, k ≤ min cnt.toNat (128 - off.toNat % 128) ∧ t.rspValue.toNat = k
      ∧ t.rspData = Memory.slice s.mem off.toNat k

/-- CP when a read command ends (R105): (a) OK: the page of its last step; (b) a failed select: as
before it; (c) a failed window read: that read's page; (d) ERR_RANGE, ERR_ILLEGAL or COUNT = 0:
unchanged. -/
def Obligations.CacheAfterEachOutcome : Prop :=
  (∀ (s t : State) (off : BitVec 10) (cnt : BitVec 11) (m : Nat), cnt ≠ 0 →
    (∀ inp ∈ s.inputs, inp.rst = false) → completesAfter m s t → t.rspStatus = 0 →
    (accepts s (encode (.bulkRead off cnt)) →
      t.cpValid = true ∧ t.cpPage.toNat = (off.toNat + cnt.toNat - 1) / 128)
    ∧ (accepts s (encode (.pageRead off cnt)) → t.cpValid = true ∧ t.cpPage.toNat = off.toNat / 128))
  ∧ (∀ (s : State) (e : Byte), Inv s → answered s (.err e) →
    (s.fsm = .selWait → ∃ t, step s = .next t ∧ t.cpValid = s.cpValid ∧ t.cpPage = s.cpPage)
    ∧ (s.fsm = .rdWait → ∃ t, step s = .next t ∧ t.cpValid = true ∧ t.cpPage = pageOf s.off))
  ∧ ∀ (s : State) (w : Command), accepts s w →
    (illegalWord w ∨ (∃ off, w = encode (.pageRead off 0)) ∨ (∃ off, w = encode (.bulkRead off 0))
      ∨ ∃ off cnt, w = encode (.bulkRead off cnt) ∧ 1024 < off.toNat + cnt.toNat) →
    ∃ t, step s = .next t ∧ t.cpValid = s.cpValid ∧ t.cpPage = s.cpPage

/-- With every transaction answered in full by the window law, a BULK_READ over P pages issues exactly P window reads and
P - 1 page selects, one more if the cache did not name its first page, completes OK in the step of the
last answer, and a PAGE_READ issues one window read and at most one select (R106). -/
def Obligations.TransactionCounts : Prop :=
  ∀ (s : State) (off : BitVec 10) (cnt : BitVec 11) (rest : List Input), s.fsm = .idle → cnt ≠ 0 →
    let extra := if s.cpValid = true ∧ s.cpPage.toNat = off.toNat / 128 then 0 else 1
    (off.toNat + cnt.toNat ≤ 1024 →
      let pages := (off.toNat + cnt.toNat - 1) / 128 - off.toNat / 128 + 1
      let total := pages + (pages - 1 + extra)
      s.inputs = commandInput (.bulkRead off cnt) :: fullAnswers (s.bus.length + 1) total ++ rest →
      ∃ t issued, completesAfter total s t ∧ t.rspStatus = 0 ∧ t.rspData.length = cnt.toNat ∧ t.inputs = rest
        ∧ t.bus = issued ++ s.bus ∧ issued.length = total
        ∧ (issued.filter BusRequest.isWinRead).length = pages)
    ∧ (s.inputs = commandInput (.pageRead off cnt) :: fullAnswers (s.bus.length + 1) (1 + extra) ++ rest →
      ∃ t issued, completesAfter (1 + extra) s t ∧ t.rspStatus = 0 ∧ t.inputs = rest
        ∧ t.rspData.length = min cnt.toNat (128 - off.toNat % 128)
        ∧ t.bus = issued ++ s.bus ∧ issued.length = 1 + extra
        ∧ (issued.filter BusRequest.isWinRead).length = 1)

/-! ### Hazards -/

/-- Hazard H1: after an out-of-band page change a read of the page the cache names skips the select and
returns the bytes of the page the device is on, with status OK; after an INVALIDATE it selects and
returns the right bytes (70_reset_and_hazards.md R139). -/
def Obligations.StaleCacheReadsTheWrongPage : Prop :=
  ∀ (s : State) (off : BitVec 10) (cnt : BitVec 11) (d : BitVec 3) (k : Nat) (rest : List Input),
    s.fsm = .idle → cnt ≠ 0 → s.cpValid = true → s.cpPage = pageOf off →
    let len := min k (min cnt.toNat (128 - off.toNat % 128))
    (s.inputs = { outOfBand := true, pageDraw := d } :: commandInput (.pageRead off cnt)
        :: answerInput (s.bus.length + 1) (.ok k) :: rest →
      ∃ t, run 3 s = .next t ∧ t.rspValid = true ∧ t.rspStatus = 0
        ∧ t.rspData = Memory.slice s.mem (128 * d.toNat + off.toNat % 128) len
        ∧ t.bus = winReadRequest s.cfg off (clampLen off cnt) :: s.bus)
    ∧ (s.inputs = { outOfBand := true, pageDraw := d } :: commandInput .invalidate :: commandInput (.pageRead off cnt)
        :: answerInput (s.bus.length + 1) (.ok k) :: answerInput (s.bus.length + 2) (.ok k) :: rest →
      ∃ t, run 5 s = .next t ∧ t.rspValid = true ∧ t.rspStatus = 0
        ∧ t.rspData = Memory.slice s.mem off.toNat len
        ∧ t.bus = winReadRequest s.cfg off (clampLen off cnt) :: pageSelRequest s.cfg (pageOf off) :: s.bus)

/-- Hazard H2: a select that fails but moves the device leaves the cache naming the old page; a later
read of that page returns the bytes of the page the device is on, with status OK (R140). -/
def Obligations.FailedSelectMayMislead : Prop :=
  ∀ (s : State) (off off' : BitVec 10) (cnt cnt' : BitVec 11) (d : BitVec 3) (e : Byte) (k : Nat) (rest : List Input),
    s.fsm = .idle → cnt ≠ 0 → cnt' ≠ 0 → s.cpValid = true → s.cpPage = pageOf off → pageOf off' ≠ pageOf off →
    s.inputs = commandInput (.pageRead off' cnt') :: { resp := some (s.bus.length + 1, .err e), pageDraw := d }
        :: commandInput (.pageRead off cnt) :: answerInput (s.bus.length + 2) (.ok k) :: rest →
    (∃ t, run 2 s = .next t ∧ t.rspStatus = 0x1 ∧ t.rspTerr = e
      ∧ t.cpValid = true ∧ t.cpPage = s.cpPage ∧ t.devPage = d)
    ∧ ∃ u, run 4 s = .next u ∧ u.rspValid = true ∧ u.rspStatus = 0
      ∧ u.rspData = Memory.slice s.mem (128 * d.toNat + off.toNat % 128)
          (min k (min cnt.toNat (128 - off.toNat % 128)))
end

