-- ==== Sys2Proof/Laws/Decode.lean ====
section
/-! SUPPORT. The fields of a command word as arithmetic on its number, and the words of the encoder as
numbers (30_encoding.md R61 to R67, R79). -/

namespace Sys2Proof

theorem append_toNat_add {m n : Nat} (a : BitVec m) (b : BitVec n) :
    (a ++ b).toNat = a.toNat * 2 ^ n + b.toNat := by
  rw [BitVec.toNat_append, ← Nat.shiftLeft_add_eq_or_of_lt b.isLt, Nat.shiftLeft_eq]

/-- The six words as numbers: OP in the top four bits, the operands below (R79). -/
theorem encode_toNat (i : Instr) :
    (encode i).toNat = match i with
      | .decode raw => 1 * 2 ^ 60 + raw.toNat
      | .encode mdeg => 2 * 2 ^ 60 + mdeg.toNat
      | .pageRead offset count => 3 * 2 ^ 60 + count.toNat * 2 ^ 10 + offset.toNat
      | .bulkRead offset count => 4 * 2 ^ 60 + count.toNat * 2 ^ 10 + offset.toNat
      | .invalidate => 5 * 2 ^ 60
      | .getPage => 6 * 2 ^ 60 := by
  cases i <;> simp only [encode, append_toNat_add] <;> simp [Nat.add_assoc]

theorem opField_toNat (w : Command) : (opField w).toNat = w.toNat / 2 ^ 60 % 2 ^ 4 := by
  simp only [opField, BitVec.extractLsb'_toNat, Nat.shiftRight_eq_div_pow]

theorem rsvdField_toNat (w : Command) : (rsvdField w).toNat = w.toNat / 2 ^ 32 % 2 ^ 28 := by
  simp only [rsvdField, BitVec.extractLsb'_toNat, Nat.shiftRight_eq_div_pow]

theorem argField_toNat (w : Command) : (argField w).toNat = w.toNat % 2 ^ 32 := by
  simp only [argField, BitVec.extractLsb'_toNat, Nat.shiftRight_zero]

theorem argAbove15_toNat (w : Command) : (argAbove15 w).toNat = w.toNat / 2 ^ 16 % 2 ^ 16 := by
  simp only [argAbove15, BitVec.extractLsb'_toNat, Nat.shiftRight_eq_div_pow]

theorem argAbove20_toNat (w : Command) : (argAbove20 w).toNat = w.toNat / 2 ^ 21 % 2 ^ 11 := by
  simp only [argAbove20, BitVec.extractLsb'_toNat, Nat.shiftRight_eq_div_pow]

theorem rawField_toNat (w : Command) : (rawField w).toNat = w.toNat % 2 ^ 16 := by
  simp only [rawField, BitVec.extractLsb'_toNat, Nat.shiftRight_zero]

theorem offsetField_toNat (w : Command) : (offsetField w).toNat = w.toNat % 2 ^ 10 := by
  simp only [offsetField, BitVec.extractLsb'_toNat, Nat.shiftRight_zero]

theorem countField_toNat (w : Command) : (countField w).toNat = w.toNat / 2 ^ 10 % 2 ^ 11 := by
  simp only [countField, BitVec.extractLsb'_toNat, Nat.shiftRight_eq_div_pow]

/-- A mask of all the bits from `k` up keeps of a word its quotient by 2^k. -/
theorem and_highMask_eq_iff (w b : Command) (k : Nat) (hb : b.toNat % 2 ^ k = 0) :
    w &&& (BitVec.allOnes 64 <<< k) = b ↔ w.toNat / 2 ^ k = b.toNat / 2 ^ k := by
  have hw : (w &&& (BitVec.allOnes 64 <<< k)) = (w >>> k) <<< k := by
    apply BitVec.eq_of_getLsbD_eq
    intro i h
    rw [BitVec.getLsbD_and, BitVec.getLsbD_shiftLeft, BitVec.getLsbD_shiftLeft, BitVec.getLsbD_allOnes,
      BitVec.getLsbD_ushiftRight]
    by_cases hk : i < k
    · simp [hk]
    · have : k + (i - k) = i := by omega
      have hi : i - k < 64 := by omega
      simp [hk, this, hi, h]
  have hn : ((w >>> k) <<< k).toNat = w.toNat / 2 ^ k * 2 ^ k := by
    have := w.isLt
    have h : w.toNat / 2 ^ k * 2 ^ k ≤ w.toNat := Nat.div_mul_le_self _ _
    rw [BitVec.toNat_shiftLeft, BitVec.toNat_ushiftRight, Nat.shiftLeft_eq, Nat.shiftRight_eq_div_pow]
    exact Nat.mod_eq_of_lt (by omega)
  have hd : b.toNat / 2 ^ k * 2 ^ k = b.toNat := Nat.div_mul_cancel (Nat.dvd_of_mod_eq_zero hb)
  rw [hw, ← BitVec.toNat_inj, hn]
  constructor
  · intro h
    rw [← h, Nat.mul_div_cancel _ (Nat.two_pow_pos k)]
  · intro h
    rw [h, hd]

/-- Each mask of the opcode table keeps all the bits from some place up. -/
theorem opcodeMasks :
    (0xFFFFFFFFFFFF0000 : Command) = BitVec.allOnes 64 <<< 16 ∧ (0xFFFFFFFF00000000 : Command) = BitVec.allOnes 64 <<< 32
    ∧ (0xFFFFFFFFFFE00000 : Command) = BitVec.allOnes 64 <<< 21 ∧ (0xFFFFFFFFFFFFFFFF : Command) = BitVec.allOnes 64 <<< 0 := by
  decide

end Sys2Proof
end

