-- ==== Sys2Proof/Laws/State.lean ====
section
/-! SUPPORT. The fields of each record update of Machine/Ops.lean, one lemma a field, so that no proof
unfolds an update. -/

namespace Sys2Proof.Machine

variable (s : State)

/-! A completion writes the response, rsp_valid and FSM. -/

@[simp] theorem complete_cfg (st : Status) (v : BitVec 32) (d : List Byte) (e : Byte) : (complete st v d e s).cfg = s.cfg := rfl
@[simp] theorem complete_cpValid (st : Status) (v : BitVec 32) (d : List Byte) (e : Byte) : (complete st v d e s).cpValid = s.cpValid := rfl
@[simp] theorem complete_cpPage (st : Status) (v : BitVec 32) (d : List Byte) (e : Byte) : (complete st v d e s).cpPage = s.cpPage := rfl
@[simp] theorem complete_fsm (st : Status) (v : BitVec 32) (d : List Byte) (e : Byte) : (complete st v d e s).fsm = .idle := rfl
@[simp] theorem complete_mode (st : Status) (v : BitVec 32) (d : List Byte) (e : Byte) : (complete st v d e s).mode = s.mode := rfl
@[simp] theorem complete_off (st : Status) (v : BitVec 32) (d : List Byte) (e : Byte) : (complete st v d e s).off = s.off := rfl
@[simp] theorem complete_rem (st : Status) (v : BitVec 32) (d : List Byte) (e : Byte) : (complete st v d e s).rem = s.rem := rfl
@[simp] theorem complete_pg (st : Status) (v : BitVec 32) (d : List Byte) (e : Byte) : (complete st v d e s).pg = s.pg := rfl
@[simp] theorem complete_n (st : Status) (v : BitVec 32) (d : List Byte) (e : Byte) : (complete st v d e s).n = s.n := rfl
@[simp] theorem complete_acc (st : Status) (v : BitVec 32) (d : List Byte) (e : Byte) : (complete st v d e s).acc = s.acc := rfl
@[simp] theorem complete_faultReason (st : Status) (v : BitVec 32) (d : List Byte) (e : Byte) : (complete st v d e s).faultReason = s.faultReason := rfl
@[simp] theorem complete_rspStatus (st : Status) (v : BitVec 32) (d : List Byte) (e : Byte) : (complete st v d e s).rspStatus = statusCode st := rfl
@[simp] theorem complete_rspValue (st : Status) (v : BitVec 32) (d : List Byte) (e : Byte) : (complete st v d e s).rspValue = v := rfl
@[simp] theorem complete_rspTerr (st : Status) (v : BitVec 32) (d : List Byte) (e : Byte) : (complete st v d e s).rspTerr = e := rfl
@[simp] theorem complete_rspData (st : Status) (v : BitVec 32) (d : List Byte) (e : Byte) : (complete st v d e s).rspData = d := rfl
@[simp] theorem complete_rspValid (st : Status) (v : BitVec 32) (d : List Byte) (e : Byte) : (complete st v d e s).rspValid = true := rfl
@[simp] theorem complete_bus (st : Status) (v : BitVec 32) (d : List Byte) (e : Byte) : (complete st v d e s).bus = s.bus := rfl
@[simp] theorem complete_devPage (st : Status) (v : BitVec 32) (d : List Byte) (e : Byte) : (complete st v d e s).devPage = s.devPage := rfl
@[simp] theorem complete_mem (st : Status) (v : BitVec 32) (d : List Byte) (e : Byte) : (complete st v d e s).mem = s.mem := rfl
@[simp] theorem complete_interleaved (st : Status) (v : BitVec 32) (d : List Byte) (e : Byte) : (complete st v d e s).interleaved = s.interleaved := rfl
@[simp] theorem complete_draws (st : Status) (v : BitVec 32) (d : List Byte) (e : Byte) : (complete st v d e s).draws = s.draws := rfl
@[simp] theorem complete_inputs (st : Status) (v : BitVec 32) (d : List Byte) (e : Byte) : (complete st v d e s).inputs = s.inputs := rfl

/-! Entering FAULT writes FSM and FAULT_REASON. -/

@[simp] theorem raiseFault_cfg : (raiseFault s).cfg = s.cfg := rfl
@[simp] theorem raiseFault_cpValid : (raiseFault s).cpValid = s.cpValid := rfl
@[simp] theorem raiseFault_cpPage : (raiseFault s).cpPage = s.cpPage := rfl
@[simp] theorem raiseFault_fsm : (raiseFault s).fsm = .fault := rfl
@[simp] theorem raiseFault_mode : (raiseFault s).mode = s.mode := rfl
@[simp] theorem raiseFault_off : (raiseFault s).off = s.off := rfl
@[simp] theorem raiseFault_rem : (raiseFault s).rem = s.rem := rfl
@[simp] theorem raiseFault_pg : (raiseFault s).pg = s.pg := rfl
@[simp] theorem raiseFault_n : (raiseFault s).n = s.n := rfl
@[simp] theorem raiseFault_acc : (raiseFault s).acc = s.acc := rfl
@[simp] theorem raiseFault_faultReason : (raiseFault s).faultReason = .overlength := rfl
@[simp] theorem raiseFault_rspStatus : (raiseFault s).rspStatus = s.rspStatus := rfl
@[simp] theorem raiseFault_rspValue : (raiseFault s).rspValue = s.rspValue := rfl
@[simp] theorem raiseFault_rspTerr : (raiseFault s).rspTerr = s.rspTerr := rfl
@[simp] theorem raiseFault_rspData : (raiseFault s).rspData = s.rspData := rfl
@[simp] theorem raiseFault_rspValid : (raiseFault s).rspValid = s.rspValid := rfl
@[simp] theorem raiseFault_bus : (raiseFault s).bus = s.bus := rfl
@[simp] theorem raiseFault_devPage : (raiseFault s).devPage = s.devPage := rfl
@[simp] theorem raiseFault_mem : (raiseFault s).mem = s.mem := rfl
@[simp] theorem raiseFault_interleaved : (raiseFault s).interleaved = s.interleaved := rfl
@[simp] theorem raiseFault_draws : (raiseFault s).draws = s.draws := rfl
@[simp] theorem raiseFault_inputs : (raiseFault s).inputs = s.inputs := rfl

/-! Reset writes every register of the block, and nothing outside it. -/

@[simp] theorem resetBlock_cfg : (resetBlock s).cfg = s.cfg := rfl
@[simp] theorem resetBlock_cpValid : (resetBlock s).cpValid = false := rfl
@[simp] theorem resetBlock_cpPage : (resetBlock s).cpPage = 0 := rfl
@[simp] theorem resetBlock_fsm : (resetBlock s).fsm = .idle := rfl
@[simp] theorem resetBlock_mode : (resetBlock s).mode = .page := rfl
@[simp] theorem resetBlock_off : (resetBlock s).off = 0 := rfl
@[simp] theorem resetBlock_rem : (resetBlock s).rem = 0 := rfl
@[simp] theorem resetBlock_pg : (resetBlock s).pg = 0 := rfl
@[simp] theorem resetBlock_n : (resetBlock s).n = 0 := rfl
@[simp] theorem resetBlock_acc : (resetBlock s).acc = [] := rfl
@[simp] theorem resetBlock_faultReason : (resetBlock s).faultReason = .none := rfl
@[simp] theorem resetBlock_rspStatus : (resetBlock s).rspStatus = 0 := rfl
@[simp] theorem resetBlock_rspValue : (resetBlock s).rspValue = 0 := rfl
@[simp] theorem resetBlock_rspTerr : (resetBlock s).rspTerr = 0 := rfl
@[simp] theorem resetBlock_rspData : (resetBlock s).rspData = [] := rfl
@[simp] theorem resetBlock_rspValid : (resetBlock s).rspValid = false := rfl
@[simp] theorem resetBlock_bus : (resetBlock s).bus = s.bus := rfl
@[simp] theorem resetBlock_devPage : (resetBlock s).devPage = s.devPage := rfl
@[simp] theorem resetBlock_mem : (resetBlock s).mem = s.mem := rfl
@[simp] theorem resetBlock_interleaved : (resetBlock s).interleaved = false := rfl
@[simp] theorem resetBlock_draws : (resetBlock s).draws = s.draws := rfl
@[simp] theorem resetBlock_inputs : (resetBlock s).inputs = s.inputs := rfl

/-! Issuing a window read writes N, FSM and the bus. -/

@[simp] theorem issueWinRead_cfg : (issueWinRead s).cfg = s.cfg := rfl
@[simp] theorem issueWinRead_cpValid : (issueWinRead s).cpValid = s.cpValid := rfl
@[simp] theorem issueWinRead_cpPage : (issueWinRead s).cpPage = s.cpPage := rfl
@[simp] theorem issueWinRead_fsm : (issueWinRead s).fsm = .rdWait := rfl
@[simp] theorem issueWinRead_mode : (issueWinRead s).mode = s.mode := rfl
@[simp] theorem issueWinRead_off : (issueWinRead s).off = s.off := rfl
@[simp] theorem issueWinRead_rem : (issueWinRead s).rem = s.rem := rfl
@[simp] theorem issueWinRead_pg : (issueWinRead s).pg = s.pg := rfl
@[simp] theorem issueWinRead_n : (issueWinRead s).n = clampLen s.off s.rem := rfl
@[simp] theorem issueWinRead_acc : (issueWinRead s).acc = s.acc := rfl
@[simp] theorem issueWinRead_faultReason : (issueWinRead s).faultReason = s.faultReason := rfl
@[simp] theorem issueWinRead_rspStatus : (issueWinRead s).rspStatus = s.rspStatus := rfl
@[simp] theorem issueWinRead_rspValue : (issueWinRead s).rspValue = s.rspValue := rfl
@[simp] theorem issueWinRead_rspTerr : (issueWinRead s).rspTerr = s.rspTerr := rfl
@[simp] theorem issueWinRead_rspData : (issueWinRead s).rspData = s.rspData := rfl
@[simp] theorem issueWinRead_rspValid : (issueWinRead s).rspValid = s.rspValid := rfl
@[simp] theorem issueWinRead_bus : (issueWinRead s).bus = winReadRequest s.cfg s.off (clampLen s.off s.rem) :: s.bus := rfl
@[simp] theorem issueWinRead_devPage : (issueWinRead s).devPage = s.devPage := rfl
@[simp] theorem issueWinRead_mem : (issueWinRead s).mem = s.mem := rfl
@[simp] theorem issueWinRead_interleaved : (issueWinRead s).interleaved = s.interleaved := rfl
@[simp] theorem issueWinRead_draws : (issueWinRead s).draws = s.draws := rfl
@[simp] theorem issueWinRead_inputs : (issueWinRead s).inputs = s.inputs := rfl

/-! Issuing a page select writes FSM and the bus. -/

@[simp] theorem issuePageSel_cfg : (issuePageSel s).cfg = s.cfg := rfl
@[simp] theorem issuePageSel_cpValid : (issuePageSel s).cpValid = s.cpValid := rfl
@[simp] theorem issuePageSel_cpPage : (issuePageSel s).cpPage = s.cpPage := rfl
@[simp] theorem issuePageSel_fsm : (issuePageSel s).fsm = .selWait := rfl
@[simp] theorem issuePageSel_mode : (issuePageSel s).mode = s.mode := rfl
@[simp] theorem issuePageSel_off : (issuePageSel s).off = s.off := rfl
@[simp] theorem issuePageSel_rem : (issuePageSel s).rem = s.rem := rfl
@[simp] theorem issuePageSel_pg : (issuePageSel s).pg = s.pg := rfl
@[simp] theorem issuePageSel_n : (issuePageSel s).n = s.n := rfl
@[simp] theorem issuePageSel_acc : (issuePageSel s).acc = s.acc := rfl
@[simp] theorem issuePageSel_faultReason : (issuePageSel s).faultReason = s.faultReason := rfl
@[simp] theorem issuePageSel_rspStatus : (issuePageSel s).rspStatus = s.rspStatus := rfl
@[simp] theorem issuePageSel_rspValue : (issuePageSel s).rspValue = s.rspValue := rfl
@[simp] theorem issuePageSel_rspTerr : (issuePageSel s).rspTerr = s.rspTerr := rfl
@[simp] theorem issuePageSel_rspData : (issuePageSel s).rspData = s.rspData := rfl
@[simp] theorem issuePageSel_rspValid : (issuePageSel s).rspValid = s.rspValid := rfl
@[simp] theorem issuePageSel_bus : (issuePageSel s).bus = pageSelRequest s.cfg s.pg :: s.bus := rfl
@[simp] theorem issuePageSel_devPage : (issuePageSel s).devPage = s.devPage := rfl
@[simp] theorem issuePageSel_mem : (issuePageSel s).mem = s.mem := rfl
@[simp] theorem issuePageSel_interleaved : (issuePageSel s).interleaved = s.interleaved := rfl
@[simp] theorem issuePageSel_draws : (issuePageSel s).draws = s.draws := rfl
@[simp] theorem issuePageSel_inputs : (issuePageSel s).inputs = s.inputs := rfl

/-! The completions of Machine/Ops.lean are all `complete`. -/

@[simp] theorem completeOk_eq (v : BitVec 32) (d : List Byte) : completeOk v d s = complete .ok v d 0 s := rfl
@[simp] theorem completeTransportError_eq (e : Byte) :
    completeTransportError e s = complete .errTransport 0 [] e { s with acc := [] } := rfl
@[simp] theorem completeIllegal_eq : completeIllegal s = complete .errIllegal 0 [] 0 s := rfl
@[simp] theorem completeRange_eq : completeRange s = complete .errRange 0 [] 0 s := rfl

end Sys2Proof.Machine
end

