-- ==== Sys2Proof/Laws/Memory.lean ====
section
/-! SUPPORT. The memory L: reading after a write, the canonical form, slices. -/

namespace Sys2Proof.Machine

@[simp] theorem Memory.read_nil (x : Nat) : Memory.read [] x = unlistedByte := rfl

/-- The canonical form, seen from the first address a cell may have. -/
theorem Memory.risingFrom_mono {m : Memory} {lo lo' : Nat} (h : lo' ≤ lo)
    (hm : Memory.risingFrom lo m = true) : Memory.risingFrom lo' m = true := by
  cases m with
  | nil => rfl
  | cons c m =>
    obtain ⟨a, b⟩ := c
    simp only [Memory.risingFrom, Bool.and_eq_true, decide_eq_true_eq] at hm ⊢
    exact ⟨h.trans hm.1, hm.2⟩

/-- An address below every cell reads as an unlisted one. -/
theorem Memory.read_of_lt {m : Memory} {lo x : Nat} (hm : Memory.risingFrom lo m = true) (h : x < lo) :
    Memory.read m x = unlistedByte := by
  induction m generalizing lo with
  | nil => rfl
  | cons c m ih =>
    obtain ⟨a, b⟩ := c
    simp only [Memory.risingFrom, Bool.and_eq_true, decide_eq_true_eq] at hm
    rw [Memory.read, if_neg (by omega)]
    exact ih hm.2 (by omega)

/-- Reading back after a write: the address written reads the byte written, every other address reads
as before. -/
theorem Memory.read_write {m : Memory} {lo : Nat} (hm : Memory.risingFrom lo m = true) (x y : Nat) (v : Byte) :
    Memory.read (Memory.write m x v) y = if x = y then v else Memory.read m y := by
  induction m generalizing lo with
  | nil =>
    by_cases hv : v = unlistedByte <;> by_cases hxy : x = y <;> simp_all [Memory.write, Memory.read]
  | cons c m ih =>
    obtain ⟨a, b⟩ := c
    simp only [Memory.risingFrom, Bool.and_eq_true, decide_eq_true_eq] at hm
    have below : ∀ z, z < a → Memory.read m z = unlistedByte :=
      fun z hz => Memory.read_of_lt hm.2 (by omega)
    have here : Memory.read m a = unlistedByte := Memory.read_of_lt hm.2 (by omega)
    unfold Memory.write
    split
    · rename_i hlt
      by_cases hv : v = unlistedByte <;> by_cases hxy : x = y <;> by_cases hay : a = y <;>
        simp_all [Memory.read]
    · split
      · rename_i hax
        by_cases hv : v = unlistedByte <;> by_cases hxy : x = y <;> simp_all [Memory.read]
      · rename_i hax
        by_cases hay : a = y
        · subst hay
          simp [Memory.read, Ne.symm hax]
        · simp only [Memory.read, if_neg hay]
          exact ih hm.2

/-- A write at or above `lo` keeps the addresses rising from `lo`. -/
theorem Memory.risingFrom_write {m : Memory} {lo x : Nat} (v : Byte) (hx : lo ≤ x)
    (hm : Memory.risingFrom lo m = true) : Memory.risingFrom lo (Memory.write m x v) = true := by
  induction m generalizing lo with
  | nil => by_cases hv : v = unlistedByte <;> simp [Memory.write, Memory.risingFrom, hv, hx]
  | cons c m ih =>
    obtain ⟨a, b⟩ := c
    simp only [Memory.risingFrom, Bool.and_eq_true, decide_eq_true_eq] at hm
    unfold Memory.write
    split
    · rename_i hlt
      split
      · simp [Memory.risingFrom, hm]
      · simp [Memory.risingFrom, hm, hx]; omega
    · split
      · rename_i hax
        split
        · exact Memory.risingFrom_mono (by omega) hm.2
        · subst hax
          simp [Memory.risingFrom, hm]
      · simp only [Memory.risingFrom, Bool.and_eq_true, decide_eq_true_eq]
        exact ⟨hm.1, ih (by omega) hm.2⟩

/-- The cells of a written memory are old ones, or the new one if its byte must be listed. -/
theorem Memory.mem_write {m : Memory} {x : Nat} {v : Byte} {c : Host.Cell} (h : c ∈ Memory.write m x v) :
    c ∈ m ∨ (c = (x, v) ∧ v ≠ unlistedByte) := by
  induction m with
  | nil => by_cases hv : v = unlistedByte <;> simp_all [Memory.write]
  | cons d m ih =>
    obtain ⟨a, b⟩ := d
    unfold Memory.write at h
    split at h <;> (try split at h) <;> (try split at h) <;> simp_all <;> tauto

/-- Every write inside L keeps the canonical form. -/
theorem Memory.wf_write {m : Memory} {x : Nat} (v : Byte) (hx : x < 1024) (hm : Memory.wf m = true) :
    Memory.wf (Memory.write m x v) = true := by
  simp only [Memory.wf, Bool.and_eq_true, List.all_eq_true, decide_eq_true_eq] at hm ⊢
  refine ⟨Memory.risingFrom_write v (Nat.zero_le _) hm.1, fun c hc => ?_⟩
  rcases Memory.mem_write hc with hc | ⟨rfl, hv⟩
  · exact hm.2 c hc
  · exact ⟨hx, hv⟩

/-- The memory of the reset state has the canonical form. -/
theorem reset_memory_wf : Memory.wf State.reset.mem = true := rfl

@[simp] theorem Memory.slice_length (m : Memory) (a k : Nat) : (Memory.slice m a k).length = k := by
  simp [Memory.slice]

@[simp] theorem Memory.slice_zero (m : Memory) (a : Nat) : Memory.slice m a 0 = [] := rfl

/-- Two adjoining slices make one. -/
theorem Memory.slice_append (m : Memory) (a j k : Nat) :
    Memory.slice m a j ++ Memory.slice m (a + j) k = Memory.slice m a (j + k) := by
  simp only [Memory.slice, List.range_add, List.map_append, List.map_map, Function.comp_def, Nat.add_assoc]

end Sys2Proof.Machine
end

