-- ==== Sys2Proof/Laws/Operands.lean ====
section
/-! SUPPORT. Address translation as arithmetic (20_memory.md R41 to R46). -/

namespace Sys2Proof.Machine

theorem pageOf_toNat (off : BitVec 10) : (pageOf off).toNat = off.toNat / 128 := by
  have := off.isLt
  simp only [pageOf, BitVec.extractLsb'_toNat, Nat.shiftRight_eq_div_pow]
  omega

theorem intraOf_toNat (off : BitVec 10) : (intraOf off).toNat = off.toNat % 128 := by
  simp [intraOf, BitVec.extractLsb'_toNat]

theorem winAddr_toNat (cfg : Params) (off : BitVec 10) :
    (winAddr cfg off).toNat = cfg.windowBase.val + off.toNat % 128 := by
  have := cfg.windowBase.isLt
  have := intraOf_toNat off
  simp only [winAddr, BitVec.toNat_ofNat]
  omega

theorem clampLen_toNat (off : BitVec 10) (rem : BitVec 11) :
    (clampLen off rem).toNat = min rem.toNat (128 - off.toNat % 128) := by
  have := intraOf_toNat off
  simp only [clampLen, BitVec.toNat_ofNat]
  omega

/-- The clamp keeps a window read inside its page (R45). -/
theorem clampLen_in_page (off : BitVec 10) (rem : BitVec 11) :
    (intraOf off).toNat + (clampLen off rem).toNat ≤ 128 := by
  rw [clampLen_toNat, intraOf_toNat]; omega

theorem clampLen_pos {off : BitVec 10} {rem : BitVec 11} (h : 1 ≤ rem.toNat) :
    1 ≤ (clampLen off rem).toNat := by
  rw [clampLen_toNat]; omega

theorem clampLen_le_rem (off : BitVec 10) (rem : BitVec 11) : (clampLen off rem).toNat ≤ rem.toNat := by
  rw [clampLen_toNat]; omega

/-- A clamped window read is a legal request. -/
theorem legal_winRead (cfg : Params) (off : BitVec 10) {rem : BitVec 11} (h : 1 ≤ rem.toNat) :
    legalRequest cfg (winReadRequest cfg off (clampLen off rem)) :=
  .inr ⟨off, _, rfl, clampLen_pos h, clampLen_in_page off rem⟩

theorem legal_pageSel (cfg : Params) (p : BitVec 3) : legalRequest cfg (pageSelRequest cfg p) := .inl ⟨p, rfl⟩

/-- The registers of a legal window read are registers of the window. -/
theorem inWindow_winAddr (cfg : Params) (off : BitVec 10) {len : Byte}
    (h : (intraOf off).toNat + len.toNat ≤ 128) : inWindow cfg (winAddr cfg off) len = true := by
  rw [intraOf_toNat] at h
  simp only [inWindow, winAddr_toNat, Bool.and_eq_true, decide_eq_true_eq]
  omega

/-- What the device shows for a window read at `off` while its page is page(off): the bytes of L from
`off` up (R42, R44, R47). -/
theorem windowBytes_at (s : State) (off : BitVec 10) (count : Nat) (h : s.devPage = pageOf off) :
    windowBytes (winAddr s.cfg off) count s = Memory.slice s.mem off.toNat count := by
  have := pageOf_toNat off
  rw [windowBytes, winAddr_toNat, h, this]
  congr 1
  omega

/-- The page the select of page `p` puts the device on (R46). -/
theorem wdata_page (p : BitVec 3) : (p.setWidth 8).setWidth 3 = p := by
  ext i; simp

end Sys2Proof.Machine
end

