-- ==== Sys2Proof/Laws/Ops.lean ====
section
/-! SUPPORT. Each shared operation of the machine: what it can do, said once. -/

namespace Sys2Proof.Machine

open Host (Outcome)

/-! ### Acceptance and the status outputs -/

theorem cmdReady_iff (s : State) : s.cmdReady = true ↔ s.fsm = .idle := by simp [State.cmdReady]

theorem busLock_iff (s : State) : s.busLock = true ↔ s.fsm = .selWait ∨ s.fsm = .rdWait := by
  simp [State.busLock]

theorem busy_iff (s : State) : s.busy = true ↔ s.fsm = .selWait ∨ s.fsm = .rdWait := by
  simp [State.busy]

theorem faulted_iff (s : State) : s.faulted = true ↔ s.fsm = .fault := by simp [State.faulted]

/-- A command presented in IDLE takes its effect. -/
theorem whenReady_idle {s : State} (f : State → State) (h : s.fsm = .idle) : whenReady s f = .next (f s) := by
  simp [whenReady, State.cmdReady, h]

/-- A command presented in any other state has none. -/
theorem whenReady_busy {s : State} (f : State → State) (h : s.fsm ≠ .idle) : whenReady s f = .next s := by
  simp [whenReady, State.cmdReady, h]

/-! ### StepIssue -/

/-- StepIssue either reads the window, when the cache names the page, or selects the page. -/
theorem stepIssue_cases (s : State) :
    (s.cpNames (pageOf s.off) = true ∧ stepIssue s = issueWinRead { s with pg := pageOf s.off })
    ∨ (s.cpNames (pageOf s.off) = false ∧ stepIssue s = issuePageSel { s with pg := pageOf s.off }) := by
  cases h : s.cpNames (pageOf s.off) <;> simp [stepIssue, h]

variable (s : State)

@[simp] theorem stepIssue_pg : (stepIssue s).pg = pageOf s.off := by
  rcases stepIssue_cases s with ⟨-, h⟩ | ⟨-, h⟩ <;> rw [h] <;> rfl
@[simp] theorem stepIssue_cfg : (stepIssue s).cfg = s.cfg := by
  rcases stepIssue_cases s with ⟨-, h⟩ | ⟨-, h⟩ <;> rw [h] <;> rfl
@[simp] theorem stepIssue_cpValid : (stepIssue s).cpValid = s.cpValid := by
  rcases stepIssue_cases s with ⟨-, h⟩ | ⟨-, h⟩ <;> rw [h] <;> rfl
@[simp] theorem stepIssue_cpPage : (stepIssue s).cpPage = s.cpPage := by
  rcases stepIssue_cases s with ⟨-, h⟩ | ⟨-, h⟩ <;> rw [h] <;> rfl
@[simp] theorem stepIssue_mode : (stepIssue s).mode = s.mode := by
  rcases stepIssue_cases s with ⟨-, h⟩ | ⟨-, h⟩ <;> rw [h] <;> rfl
@[simp] theorem stepIssue_off : (stepIssue s).off = s.off := by
  rcases stepIssue_cases s with ⟨-, h⟩ | ⟨-, h⟩ <;> rw [h] <;> rfl
@[simp] theorem stepIssue_rem : (stepIssue s).rem = s.rem := by
  rcases stepIssue_cases s with ⟨-, h⟩ | ⟨-, h⟩ <;> rw [h] <;> rfl
@[simp] theorem stepIssue_acc : (stepIssue s).acc = s.acc := by
  rcases stepIssue_cases s with ⟨-, h⟩ | ⟨-, h⟩ <;> rw [h] <;> rfl
@[simp] theorem stepIssue_faultReason : (stepIssue s).faultReason = s.faultReason := by
  rcases stepIssue_cases s with ⟨-, h⟩ | ⟨-, h⟩ <;> rw [h] <;> rfl
@[simp] theorem stepIssue_rspStatus : (stepIssue s).rspStatus = s.rspStatus := by
  rcases stepIssue_cases s with ⟨-, h⟩ | ⟨-, h⟩ <;> rw [h] <;> rfl
@[simp] theorem stepIssue_rspValue : (stepIssue s).rspValue = s.rspValue := by
  rcases stepIssue_cases s with ⟨-, h⟩ | ⟨-, h⟩ <;> rw [h] <;> rfl
@[simp] theorem stepIssue_rspTerr : (stepIssue s).rspTerr = s.rspTerr := by
  rcases stepIssue_cases s with ⟨-, h⟩ | ⟨-, h⟩ <;> rw [h] <;> rfl
@[simp] theorem stepIssue_rspData : (stepIssue s).rspData = s.rspData := by
  rcases stepIssue_cases s with ⟨-, h⟩ | ⟨-, h⟩ <;> rw [h] <;> rfl
@[simp] theorem stepIssue_rspValid : (stepIssue s).rspValid = s.rspValid := by
  rcases stepIssue_cases s with ⟨-, h⟩ | ⟨-, h⟩ <;> rw [h] <;> rfl
@[simp] theorem stepIssue_devPage : (stepIssue s).devPage = s.devPage := by
  rcases stepIssue_cases s with ⟨-, h⟩ | ⟨-, h⟩ <;> rw [h] <;> rfl
@[simp] theorem stepIssue_mem : (stepIssue s).mem = s.mem := by
  rcases stepIssue_cases s with ⟨-, h⟩ | ⟨-, h⟩ <;> rw [h] <;> rfl
@[simp] theorem stepIssue_interleaved : (stepIssue s).interleaved = s.interleaved := by
  rcases stepIssue_cases s with ⟨-, h⟩ | ⟨-, h⟩ <;> rw [h] <;> rfl
@[simp] theorem stepIssue_draws : (stepIssue s).draws = s.draws := by
  rcases stepIssue_cases s with ⟨-, h⟩ | ⟨-, h⟩ <;> rw [h] <;> rfl
@[simp] theorem stepIssue_inputs : (stepIssue s).inputs = s.inputs := by
  rcases stepIssue_cases s with ⟨-, h⟩ | ⟨-, h⟩ <;> rw [h] <;> rfl

/-- StepIssue leaves FSM waiting. -/
theorem stepIssue_busLock : (stepIssue s).busLock = true := by
  rcases stepIssue_cases s with ⟨-, h⟩ | ⟨-, h⟩ <;> rw [h] <;> rfl

/-- StepIssue puts exactly one request on the bus, a legal one while bytes are still wanted. -/
theorem stepIssue_bus {s : State} (h : 1 ≤ s.rem.toNat) :
    ∃ r, (stepIssue s).bus = r :: s.bus ∧ legalRequest s.cfg r := by
  rcases stepIssue_cases s with ⟨-, hs⟩ | ⟨-, hs⟩ <;> rw [hs]
  · exact ⟨_, rfl, legal_winRead _ _ h⟩
  · exact ⟨_, rfl, legal_pageSel _ _⟩

/-! ### Out-of-band actions and the consumption of the input -/

@[simp] theorem freeBytes_length (d k : Nat) : (freeBytes d k).length = k := by simp [freeBytes]

/-- Nothing happens out of band on most inputs. -/
theorem actOutOfBand_quiet {inp : Input} (s : State) (h : inp.outOfBand = false) : actOutOfBand inp s = s := by
  simp [actOutOfBand, h]

@[simp] theorem actOutOfBand_cfg (inp : Input) : (actOutOfBand inp s).cfg = s.cfg := by
  unfold actOutOfBand; split <;> (try split) <;> rfl
@[simp] theorem actOutOfBand_cpValid (inp : Input) : (actOutOfBand inp s).cpValid = s.cpValid := by
  unfold actOutOfBand; split <;> (try split) <;> rfl
@[simp] theorem actOutOfBand_cpPage (inp : Input) : (actOutOfBand inp s).cpPage = s.cpPage := by
  unfold actOutOfBand; split <;> (try split) <;> rfl
@[simp] theorem actOutOfBand_fsm (inp : Input) : (actOutOfBand inp s).fsm = s.fsm := by
  unfold actOutOfBand; split <;> (try split) <;> rfl
@[simp] theorem actOutOfBand_mode (inp : Input) : (actOutOfBand inp s).mode = s.mode := by
  unfold actOutOfBand; split <;> (try split) <;> rfl
@[simp] theorem actOutOfBand_off (inp : Input) : (actOutOfBand inp s).off = s.off := by
  unfold actOutOfBand; split <;> (try split) <;> rfl
@[simp] theorem actOutOfBand_rem (inp : Input) : (actOutOfBand inp s).rem = s.rem := by
  unfold actOutOfBand; split <;> (try split) <;> rfl
@[simp] theorem actOutOfBand_pg (inp : Input) : (actOutOfBand inp s).pg = s.pg := by
  unfold actOutOfBand; split <;> (try split) <;> rfl
@[simp] theorem actOutOfBand_n (inp : Input) : (actOutOfBand inp s).n = s.n := by
  unfold actOutOfBand; split <;> (try split) <;> rfl
@[simp] theorem actOutOfBand_faultReason (inp : Input) : (actOutOfBand inp s).faultReason = s.faultReason := by
  unfold actOutOfBand; split <;> (try split) <;> rfl
@[simp] theorem actOutOfBand_rspStatus (inp : Input) : (actOutOfBand inp s).rspStatus = s.rspStatus := by
  unfold actOutOfBand; split <;> (try split) <;> rfl
@[simp] theorem actOutOfBand_rspValue (inp : Input) : (actOutOfBand inp s).rspValue = s.rspValue := by
  unfold actOutOfBand; split <;> (try split) <;> rfl
@[simp] theorem actOutOfBand_rspTerr (inp : Input) : (actOutOfBand inp s).rspTerr = s.rspTerr := by
  unfold actOutOfBand; split <;> (try split) <;> rfl
@[simp] theorem actOutOfBand_rspData (inp : Input) : (actOutOfBand inp s).rspData = s.rspData := by
  unfold actOutOfBand; split <;> (try split) <;> rfl
@[simp] theorem actOutOfBand_rspValid (inp : Input) : (actOutOfBand inp s).rspValid = s.rspValid := by
  unfold actOutOfBand; split <;> (try split) <;> rfl
@[simp] theorem actOutOfBand_bus (inp : Input) : (actOutOfBand inp s).bus = s.bus := by
  unfold actOutOfBand; split <;> (try split) <;> rfl
@[simp] theorem actOutOfBand_mem (inp : Input) : (actOutOfBand inp s).mem = s.mem := by
  unfold actOutOfBand; split <;> (try split) <;> rfl
@[simp] theorem actOutOfBand_inputs (inp : Input) : (actOutOfBand inp s).inputs = s.inputs := by
  unfold actOutOfBand; split <;> (try split) <;> rfl

/-- An out-of-band action never changes how many bytes ACC holds. -/
@[simp] theorem actOutOfBand_acc_length (inp : Input) : (actOutOfBand inp s).acc.length = s.acc.length := by
  unfold actOutOfBand; split <;> (try split) <;> simp

@[simp] theorem actOutOfBand_busLock (inp : Input) : (actOutOfBand inp s).busLock = s.busLock := by
  simp [State.busLock]

@[simp] theorem consume_cfg : s.consume.cfg = s.cfg := by simp [State.consume]
@[simp] theorem consume_cpValid : s.consume.cpValid = s.cpValid := by simp [State.consume]
@[simp] theorem consume_cpPage : s.consume.cpPage = s.cpPage := by simp [State.consume]
@[simp] theorem consume_fsm : s.consume.fsm = s.fsm := by simp [State.consume]
@[simp] theorem consume_mode : s.consume.mode = s.mode := by simp [State.consume]
@[simp] theorem consume_off : s.consume.off = s.off := by simp [State.consume]
@[simp] theorem consume_rem : s.consume.rem = s.rem := by simp [State.consume]
@[simp] theorem consume_pg : s.consume.pg = s.pg := by simp [State.consume]
@[simp] theorem consume_n : s.consume.n = s.n := by simp [State.consume]
@[simp] theorem consume_faultReason : s.consume.faultReason = s.faultReason := by simp [State.consume]
@[simp] theorem consume_rspStatus : s.consume.rspStatus = s.rspStatus := by simp [State.consume]
@[simp] theorem consume_rspValue : s.consume.rspValue = s.rspValue := by simp [State.consume]
@[simp] theorem consume_rspTerr : s.consume.rspTerr = s.rspTerr := by simp [State.consume]
@[simp] theorem consume_rspData : s.consume.rspData = s.rspData := by simp [State.consume]
@[simp] theorem consume_rspValid : s.consume.rspValid = false := by simp [State.consume]
@[simp] theorem consume_bus : s.consume.bus = s.bus := by simp [State.consume]
@[simp] theorem consume_mem : s.consume.mem = s.mem := by simp [State.consume]
@[simp] theorem consume_inputs : s.consume.inputs = s.inputs.tail := by simp [State.consume]
@[simp] theorem consume_acc_length : s.consume.acc.length = s.acc.length := by simp [State.consume]
@[simp] theorem consume_busLock : s.consume.busLock = s.busLock := by simp [State.busLock]
@[simp] theorem consume_cmdReady : s.consume.cmdReady = s.cmdReady := by simp [State.cmdReady]
@[simp] theorem consume_outstanding : s.consume.outstanding = s.outstanding := by simp [State.outstanding]
@[simp] theorem consume_cpNames (p : BitVec 3) : s.consume.cpNames p = s.cpNames p := by simp [State.cpNames]

/-- With nothing out of band, consuming the input only takes it off the list and lowers rsp_valid. -/
theorem consume_quiet {s : State} (h : s.headInput.outOfBand = false) :
    s.consume = { s with inputs := s.inputs.tail, rspValid := false } := actOutOfBand_quiet _ h

@[simp] theorem headInput_cons (s : State) (inp : Input) (rest : List Input) :
    ({ s with inputs := inp :: rest } : State).headInput = inp := rfl

theorem headInput_of_inputs {s : State} {inp : Input} {rest : List Input} (h : s.inputs = inp :: rest) :
    s.headInput = inp := by simp [State.headInput, h]

/-! ### The answers of the transport -/

/-- Which transaction can be outstanding: a page select in SEL_WAIT, a window read in RD_WAIT. -/
theorem outstanding_some {s : State} {req : BusRequest} (h : s.outstanding = some req) :
    s.bus.head? = some req
    ∧ ((s.fsm = .selWait ∧ ∃ a w, req = .pageSel a w) ∨ (s.fsm = .rdWait ∧ ∃ a l, req = .winRead a l)) := by
  unfold State.outstanding at h
  split at h
  · rename_i hf hb
    obtain rfl := Option.some.inj h
    exact ⟨by rw [hb]; rfl, .inl ⟨hf, _, _, rfl⟩⟩
  · rename_i hf hb
    obtain rfl := Option.some.inj h
    exact ⟨by rw [hb]; rfl, .inr ⟨hf, _, _, rfl⟩⟩
  · cases h

theorem outstanding_selWait {s : State} {a w : Byte} (hf : s.fsm = .selWait)
    (hb : s.bus.head? = some (.pageSel a w)) : s.outstanding = some (.pageSel a w) := by
  unfold State.outstanding
  obtain ⟨l, hl⟩ := List.head?_eq_some_iff.mp hb
  simp [hf, hl]

theorem outstanding_rdWait {s : State} {a l : Byte} (hf : s.fsm = .rdWait)
    (hb : s.bus.head? = some (.winRead a l)) : s.outstanding = some (.winRead a l) := by
  unfold State.outstanding
  obtain ⟨r, hr⟩ := List.head?_eq_some_iff.mp hb
  simp [hf, hr]

/-- The block heeds an answer exactly when it bears the number of the outstanding transaction. -/
theorem answerFor_some {inp : Input} {s : State} {req : BusRequest} {ans : Answer} :
    answerFor inp s = some (req, ans) ↔ s.outstanding = some req ∧ inp.resp = some (s.bus.length, ans) := by
  unfold answerFor
  split
  · rename_i r k a h1 h2
    rw [h1, h2]
    by_cases hk : k = s.bus.length
    · simp [hk]
    · simp [hk]
  · rename_i hno
    constructor
    · intro h; cases h
    · rintro ⟨h1, h2⟩
      exact absurd h2 (hno _ _ _ h1)

/-- The window read of the current step transferred `bytes`: over-length, the end of a PAGE_READ, the
end of a BULK_READ, or its next step. -/
theorem onReadOk_cases (bytes : List Byte) (s : State) :
    (s.n.toNat < bytes.length ∧ onReadOk bytes s = raiseFault s)
    ∨ (bytes.length ≤ s.n.toNat ∧ s.mode = .page
        ∧ onReadOk bytes s = complete .ok (BitVec.ofNat 32 bytes.length) bytes 0 { s with acc := s.acc ++ bytes })
    ∨ (bytes.length ≤ s.n.toNat ∧ s.mode = .bulk ∧ s.rem.toNat ≤ bytes.length
        ∧ onReadOk bytes s = complete .ok (BitVec.ofNat 32 (s.acc.length + bytes.length)) (s.acc ++ bytes) 0
            { s with acc := s.acc ++ bytes })
    ∨ (bytes.length ≤ s.n.toNat ∧ s.mode = .bulk ∧ bytes.length < s.rem.toNat
        ∧ onReadOk bytes s = stepIssue { s with acc := s.acc ++ bytes, off := s.off + BitVec.ofNat 10 bytes.length,
                                                rem := BitVec.ofNat 11 (s.rem.toNat - bytes.length) }) := by
  unfold onReadOk
  by_cases hn : s.n.toNat < bytes.length
  · exact .inl ⟨hn, by simp [hn]⟩
  · have hle : bytes.length ≤ s.n.toNat := by omega
    cases hm : s.mode
    · exact .inr (.inl ⟨hle, rfl, by simp [hn, completeOk]⟩)
    · by_cases hr : s.rem.toNat ≤ bytes.length
      · exact .inr (.inr (.inl ⟨hle, rfl, hr, by simp [hn, Nat.sub_eq_zero_of_le hr, completeOk]⟩))
      · exact .inr (.inr (.inr ⟨hle, rfl, by omega, by
          have : s.rem.toNat - bytes.length ≠ 0 := by omega
          simp [hn, this]⟩))

/-- No transition of the sequencer looks at the count of free bytes drawn. -/
theorem stepIssue_setDraws (s : State) (d : Nat) : stepIssue { s with draws := d } = { stepIssue s with draws := d } := by
  simp only [stepIssue, State.cpNames]
  rcases Bool.eq_false_or_eq_true (s.cpValid && s.cpPage == pageOf s.off) with h | h <;> simp only [h] <;> rfl

theorem onReadOk_setDraws (bytes : List Byte) (s : State) (d : Nat) :
    onReadOk bytes { s with draws := d } = { onReadOk bytes s with draws := d } := by
  simp only [onReadOk]
  split
  · rfl
  · split
    · rfl
    · split
      · rfl
      · exact stepIssue_setDraws { s with acc := s.acc ++ bytes, off := s.off + BitVec.ofNat 10 bytes.length,
                                          rem := BitVec.ofNat 11 (s.rem.toNat - bytes.length) } d

/-- The device answers inside the window, or with free bytes while another master interleaves. -/
theorem deliver_cases (addr len : Byte) (k : Nat) (s : State) :
    (s.interleaved = true ∧ deliver addr len k s
        = .next (onReadOk (freeBytes s.draws (min k len.toNat)) { s with draws := s.draws + min k len.toNat }))
    ∨ (s.interleaved = false ∧ inWindow s.cfg addr len = true
        ∧ deliver addr len k s = .next (onReadOk (windowBytes addr (min k len.toNat) s) s))
    ∨ (s.interleaved = false ∧ inWindow s.cfg addr len = false ∧ deliver addr len k s = .fault .unmappedRegister) := by
  unfold deliver
  cases s.interleaved <;> cases inWindow s.cfg addr len <;> simp

/-- What the block does on an answer that leads on: the command ends with the transport's error, the
select succeeds, or the window read has transferred some bytes. Only DEV_PAGE and the count of free
bytes drawn have changed before. -/
theorem onAnswer_cases {inp : Input} {req : BusRequest} {ans : Answer} {s t : State}
    (h : onAnswer inp req ans s = .next t) :
    (∃ e d, ans = .err e ∧ t = completeTransportError e { s with devPage := d })
    ∨ (∃ d, (∀ e, ans ≠ .err e) ∧ t = onSelectOk { s with devPage := d })
    ∨ (∃ bytes d, (∀ e, ans ≠ .err e) ∧ t = onReadOk bytes { s with draws := d }) := by
  unfold onAnswer at h
  split at h
  · cases h; exact .inl ⟨_, _, rfl, rfl⟩
  · rename_i hne
    split at h
    · cases h; exact .inr (.inl ⟨_, fun e he => hne e he, rfl⟩)
    · cases h
  · cases h; exact .inl ⟨_, s.devPage, rfl, rfl⟩
  · cases h; exact .inr (.inr ⟨_, s.draws, by simp, rfl⟩)
  · rename_i addr len k
    rcases deliver_cases addr len k s with ⟨-, h'⟩ | ⟨-, -, h'⟩ | ⟨-, -, h'⟩ <;> rw [h] at h' <;> cases h'
    · exact .inr (.inr ⟨_, _, by simp, rfl⟩)
    · exact .inr (.inr ⟨_, s.draws, by simp, rfl⟩)

end Sys2Proof.Machine
end

