-- ==== Sys2Proof/Laws/PerInstr.lean ====
section
/-! SUPPORT. Statements about every command as syntax, one lemma a constructor. -/

namespace Sys2Proof.Laws

/-- The command's word satisfies the row of the opcode table that has the command's mnemonic, and no
other row (30_encoding.md R70). -/
def EncodeRow.Statement (i : Instr) : Prop :=
  opcodeRows.map (·.covers (encode i)) = opcodeRows.map (fun r => decide (r.mnemonic = i.mnemonic))

/-- A row covers a word as its number says. -/
theorem covers_rows (w : Command) :
    opcodeRows.map (·.covers w) =
      [ decide (w.toNat / 2 ^ 16 = 1 * 2 ^ 44), decide (w.toNat / 2 ^ 32 = 2 * 2 ^ 28),
        decide (w.toNat / 2 ^ 21 = 3 * 2 ^ 39), decide (w.toNat / 2 ^ 21 = 4 * 2 ^ 39),
        decide (w.toNat = 5 * 2 ^ 60), decide (w.toNat = 6 * 2 ^ 60) ] := by
  obtain ⟨h16, h32, h21, h0⟩ := opcodeMasks
  simp only [opcodeRows, List.map, OpcodeRow.covers]
  rw [h16, h32, h21, h0]
  simp only [and_highMask_eq_iff _ _ 16 (show (0x1000000000000000 : Command).toNat % 2 ^ 16 = 0 by decide),
    and_highMask_eq_iff _ _ 32 (show (0x2000000000000000 : Command).toNat % 2 ^ 32 = 0 by decide),
    and_highMask_eq_iff _ _ 21 (show (0x3000000000000000 : Command).toNat % 2 ^ 21 = 0 by decide),
    and_highMask_eq_iff _ _ 21 (show (0x4000000000000000 : Command).toNat % 2 ^ 21 = 0 by decide),
    and_highMask_eq_iff _ _ 0 (show (0x5000000000000000 : Command).toNat % 2 ^ 0 = 0 by decide),
    and_highMask_eq_iff _ _ 0 (show (0x6000000000000000 : Command).toNat % 2 ^ 0 = 0 by decide)]
  simp

theorem EncodeRow.decode (raw : BitVec 16) : EncodeRow.Statement (.decode raw) := by
  have := raw.isLt
  rw [EncodeRow.Statement, covers_rows, encode_toNat]
  simp [opcodeRows, Instr.mnemonic]
  omega

theorem EncodeRow.encode (mdeg : BitVec 32) : EncodeRow.Statement (.encode mdeg) := by
  have := mdeg.isLt
  rw [EncodeRow.Statement, covers_rows, encode_toNat]
  simp [opcodeRows, Instr.mnemonic]
  omega

theorem EncodeRow.pageRead (offset : BitVec 10) (count : BitVec 11) : EncodeRow.Statement (.pageRead offset count) := by
  have := offset.isLt
  have := count.isLt
  rw [EncodeRow.Statement, covers_rows, encode_toNat]
  simp [opcodeRows, Instr.mnemonic]
  omega

theorem EncodeRow.bulkRead (offset : BitVec 10) (count : BitVec 11) : EncodeRow.Statement (.bulkRead offset count) := by
  have := offset.isLt
  have := count.isLt
  rw [EncodeRow.Statement, covers_rows, encode_toNat]
  simp [opcodeRows, Instr.mnemonic]
  omega

theorem EncodeRow.invalidate : EncodeRow.Statement .invalidate := by
  rw [EncodeRow.Statement, covers_rows, encode_toNat]
  simp [opcodeRows, Instr.mnemonic]

theorem EncodeRow.getPage : EncodeRow.Statement .getPage := by
  rw [EncodeRow.Statement, covers_rows, encode_toNat]
  simp [opcodeRows, Instr.mnemonic]

end Sys2Proof.Laws
end

