-- ==== Sys2Proof/Laws/Step.lean ====
section
/-! SUPPORT. What one step can do, said once: the cases of `step` and of `exec`. -/

namespace Sys2Proof.Machine

open Host (Outcome)

/-- A word is accepted exactly when rst is low, FSM is IDLE and a word is presented. -/
theorem acceptedWord_some {inp : Input} {s : State} {w : Command} :
    acceptedWord inp s = some w ↔ inp.rst = false ∧ s.fsm = .idle ∧ inp.cmd = some w := by
  unfold acceptedWord
  cases inp.rst <;> cases h : s.fsm <;> simp [State.cmdReady, h]

theorem acceptedWord_none {inp : Input} {s : State} :
    acceptedWord inp s = none ↔ inp.rst = true ∨ s.fsm ≠ .idle ∨ inp.cmd = none := by
  unfold acceptedWord
  cases inp.rst <;> cases h : s.fsm <;> simp [State.cmdReady, h]

/-- An accepted legal word is executed on the state whose input has been consumed. -/
theorem step_legal {s : State} {w : Command} {i : Instr} (hr : s.headInput.rst = false) (hf : s.fsm = .idle)
    (hc : s.headInput.cmd = some w) (hd : decode w = .ok i) : step s = exec i s.consume := by
  have : acceptedWord s.headInput s.consume = some w := acceptedWord_some.mpr ⟨hr, by simpa using hf, hc⟩
  simp only [step, this, hd]

/-- An accepted illegal word completes ERR_ILLEGAL. -/
theorem step_illegal {s : State} {w : Command} {e : IllegalWord} (hr : s.headInput.rst = false)
    (hf : s.fsm = .idle) (hc : s.headInput.cmd = some w) (hd : decode w = .error e) :
    step s = .next (completeIllegal s.consume) := by
  have : acceptedWord s.headInput s.consume = some w := acceptedWord_some.mpr ⟨hr, by simpa using hf, hc⟩
  simp only [step, this, hd]

/-- A step that accepts no word is an event of `onEvent`. -/
theorem step_event {s : State} (h : s.headInput.rst = true ∨ s.fsm ≠ .idle ∨ s.headInput.cmd = none) :
    step s = onEvent s.headInput s.consume := by
  have : acceptedWord s.headInput s.consume = none := acceptedWord_none.mpr (by simpa using h)
  simp only [step, this]

theorem step_reset {s : State} (h : s.headInput.rst = true) : step s = .next (onReset s.headInput s.consume) := by
  rw [step_event (.inl h), onEvent, if_pos h]

/-- The answer to the outstanding transaction is heeded. -/
theorem step_answer {s : State} {req : BusRequest} {ans : Answer} (hr : s.headInput.rst = false)
    (ho : s.outstanding = some req) (ha : s.headInput.resp = some (s.bus.length, ans)) :
    step s = onAnswer s.headInput req ans s.consume := by
  have hf : s.fsm ≠ .idle := by
    rcases (outstanding_some ho).2 with ⟨h, -⟩ | ⟨h, -⟩ <;> simp [h]
  have : answerFor s.headInput s.consume = some (req, ans) := answerFor_some.mpr ⟨by simpa using ho, by simpa using ha⟩
  rw [step_event (.inr (.inl hf)), onEvent, if_neg (by simp [hr])]
  simp only [this]

/-- What a step can be: a command executed, an illegal word, a reset, an answer heeded, or nothing. -/
theorem step_cases {s : State} {o : Outcome State Fault Refusal} (h : step s = o) :
    (∃ w i, s.headInput.rst = false ∧ s.fsm = .idle ∧ s.headInput.cmd = some w ∧ decode w = .ok i
        ∧ exec i s.consume = o)
    ∨ (∃ w e, s.headInput.rst = false ∧ s.fsm = .idle ∧ s.headInput.cmd = some w ∧ decode w = .error e
        ∧ o = .next (completeIllegal s.consume))
    ∨ (s.headInput.rst = true ∧ o = .next (onReset s.headInput s.consume))
    ∨ (∃ req ans, s.headInput.rst = false ∧ s.outstanding = some req
        ∧ s.headInput.resp = some (s.bus.length, ans) ∧ onAnswer s.headInput req ans s.consume = o)
    ∨ (s.headInput.rst = false ∧ (s.fsm ≠ .idle ∨ s.headInput.cmd = none)
        ∧ answerFor s.headInput s.consume = none ∧ o = .next s.consume) := by
  subst h
  cases ha : acceptedWord s.headInput s.consume with
  | some w =>
    obtain ⟨hr, hf, hc⟩ := acceptedWord_some.mp ha
    replace hf : s.fsm = .idle := by simpa using hf
    cases hd : decode w with
    | ok i => exact .inl ⟨w, i, hr, hf, hc, hd, (step_legal hr hf hc hd).symm⟩
    | error e => exact .inr (.inl ⟨w, e, hr, hf, hc, hd, step_illegal hr hf hc hd⟩)
  | none =>
    have hn := acceptedWord_none.mp ha
    rw [consume_fsm] at hn
    cases hr : s.headInput.rst with
    | true => exact .inr (.inr (.inl ⟨rfl, step_reset hr⟩))
    | false =>
      cases he : answerFor s.headInput s.consume with
      | some p =>
        obtain ⟨req, ans⟩ := p
        obtain ⟨ho, hp⟩ := answerFor_some.mp he
        rw [consume_outstanding] at ho
        rw [consume_bus] at hp
        exact .inr (.inr (.inr (.inl ⟨req, ans, rfl, ho, hp, (step_answer hr ho hp).symm⟩)))
      | none =>
        refine .inr (.inr (.inr (.inr ⟨rfl, by simpa [hr] using hn, rfl, ?_⟩)))
        rw [step_event hn, onEvent, if_neg (by simp [hr])]
        simp only [he]

/-- What an accepted command can do: complete, perhaps with CP_VALID cleared first, or start a read. -/
theorem exec_cases {i : Instr} {s : State} (hf : s.fsm = .idle) :
    (∃ v, exec i s = .next (complete .ok v [] 0 s))
    ∨ (i = .invalidate ∧ exec i s = .next (complete .ok 0 [] 0 { s with cpValid := false }))
    ∨ (∃ off cnt, i = .bulkRead off cnt ∧ cnt ≠ 0 ∧ 1024 < off.toNat + cnt.toNat
        ∧ exec i s = .next (complete .errRange 0 [] 0 s))
    ∨ (∃ off cnt, i = .pageRead off cnt ∧ cnt ≠ 0 ∧ exec i s = .next (startRead .page off cnt s))
    ∨ (∃ off cnt, i = .bulkRead off cnt ∧ cnt ≠ 0 ∧ off.toNat + cnt.toNat ≤ 1024
        ∧ exec i s = .next (startRead .bulk off cnt s)) := by
  cases i with
  | decode raw => exact .inl ⟨_, by rw [exec, execDecode, whenReady_idle _ hf, completeOk_eq]⟩
  | encode mdeg => exact .inl ⟨_, by rw [exec, execEncode, whenReady_idle _ hf, completeOk_eq]⟩
  | getPage => exact .inl ⟨_, by rw [exec, execGetPage, whenReady_idle _ hf, completeOk_eq]⟩
  | invalidate => exact .inr (.inl ⟨rfl, by rw [exec, execInvalidate, whenReady_idle _ hf, completeOk_eq]⟩)
  | pageRead off cnt =>
    by_cases h0 : cnt = 0
    · exact .inl ⟨0, by rw [exec, execPageRead, whenReady_idle _ hf, if_pos h0, completeOk_eq]⟩
    · exact .inr (.inr (.inr (.inl ⟨off, cnt, rfl, h0, by
        rw [exec, execPageRead, whenReady_idle _ hf, if_neg h0]⟩)))
  | bulkRead off cnt =>
    by_cases h0 : cnt = 0
    · exact .inl ⟨0, by rw [exec, execBulkRead, whenReady_idle _ hf, if_pos h0, completeOk_eq]⟩
    · by_cases hr : 1024 < off.toNat + cnt.toNat
      · exact .inr (.inr (.inl ⟨off, cnt, rfl, h0, hr, by
          rw [exec, execBulkRead, whenReady_idle _ hf, if_neg h0, if_pos hr, completeRange_eq]⟩))
      · exact .inr (.inr (.inr (.inr ⟨off, cnt, rfl, h0, by omega, by
          rw [exec, execBulkRead, whenReady_idle _ hf, if_neg h0, if_neg hr]⟩)))

/-- A command presented outside IDLE has no effect. -/
theorem exec_busy {i : Instr} {s : State} (hf : s.fsm ≠ .idle) : exec i s = .next s := by
  cases i <;> simp only [exec, execDecode, execEncode, execPageRead, execBulkRead, execInvalidate, execGetPage,
    whenReady_busy _ hf]

end Sys2Proof.Machine
end

