-- ==== Sys2Proof/Laws/Run.lean ====
section
/-! SUPPORT. Runs of many steps, and the induction over the steps until a command completes. -/

namespace Sys2Proof.Machine

open Host (Outcome)

@[simp] theorem run_zero (s : State) : run 0 s = .next s := rfl

/-- A run begins with its first step. -/
theorem run_succ (m : Nat) (s : State) : run (m + 1) s = match step s with
    | .next t => run m t
    | .fault r => .fault r
    | .refused r => .refused r := by
  have h : Sys2Proof.core.step s = step s := rfl
  cases hs : step s <;> rw [hs] at h <;> simp only [run, Host.Core.run, h] <;> rfl

theorem run_next {m : Nat} {s t : State} (h : step s = .next t) : run (m + 1) s = run m t := by
  rw [run_succ, h]

/-- Every step of a run that reaches a state answers a next state. -/
theorem run_next_inv {m : Nat} {s t : State} (h : run (m + 1) s = .next t) :
    ∃ u, step s = .next u ∧ run m u = .next t := by
  rw [run_succ] at h
  cases hs : step s <;> simp only [hs] at h
  · exact ⟨_, rfl, h⟩
  · cases h
  · cases h

/-- A run of `m + k` steps is one of `m` and then one of `k`. -/
theorem run_add {m k : Nat} {s t : State} (h : run m s = .next t) : run (m + k) s = run k t := by
  induction m generalizing s with
  | zero => cases h; rw [Nat.zero_add]
  | succ m ih =>
    obtain ⟨u, hs, hu⟩ := run_next_inv h
    rw [show m + 1 + k = m + k + 1 by omega, run_next hs, ih hu]

/-- A property `P` that every step without a completion keeps, and that makes every completion have
`Q`, gives `Q` of the completion of a command whose first step leads into `P`. -/
theorem completesAfter_induct {P Q : State → Prop}
    (h : ∀ s t, P s → step s = .next t → (t.rspValid = false → P t) ∧ (t.rspValid = true → Q t))
    {m : Nat} {s t u : State} (hs : step s = .next u) (hu : u.rspValid = false → P u)
    (hq : u.rspValid = true → Q u) (hc : completesAfter m s t) : Q t := by
  obtain ⟨h1, h2, h3⟩ := hc
  rw [run_next hs] at h1
  induction m generalizing s u with
  | zero => cases h1; exact hq h2
  | succ m ih =>
    obtain ⟨v, hv, hr⟩ := run_next_inv h1
    have hp := hu (h3 0 u (by omega) (by rw [run_next hs]; rfl))
    exact ih hv (h u v hp hv).1 (h u v hp hv).2 hr
      (fun j w hj hw => h3 (j + 1) w (by omega) (by rw [run_next hs]; exact hw))

end Sys2Proof.Machine
end

