-- ==== Sys2Proof/Tests/Slice0.lean ====
section
/-! SUPPORT. Tests of the model's own: ill-formed assembler lines, words written out from the encoding
tables, vectors of 95_test_vectors.md, and a witness for the hypotheses of every statement that has
some. -/

namespace Sys2Proof.Tests

open Sys2Proof Sys2Proof.Machine
open Host (Outcome)

/-! ### Well-formedness: each check refuses a line outside its range (30_encoding.md R79) -/

theorem smoke_decode_raw : (Asm.decode 0x10000).assemble = none := by decide
theorem smoke_encode_high : (Asm.encode (2 ^ 31)).assemble = none := by decide
theorem smoke_encode_low : (Asm.encode (-2 ^ 31 - 1)).assemble = none := by decide
theorem smoke_pageRead_offset : (Asm.pageRead 1024 1).assemble = none := by decide
theorem smoke_pageRead_count : (Asm.pageRead 0 2048).assemble = none := by decide
theorem smoke_bulkRead_offset : (Asm.bulkRead 1024 1).assemble = none := by decide
theorem smoke_bulkRead_count : (Asm.bulkRead 0 2048).assemble = none := by decide

/-! ### Decoding: words of 95_test_vectors.md section 3 and their bits (30_encoding.md R61 to R66) -/

/-- DECODE 0x0190: OP 0001, 44 zeros, RAW. -/
theorem test_decode_word : decode (0x1#4 ++ 0#44 ++ 0x0190#16) = .ok (.decode 0x0190) := by decide
theorem test_decode_word_hex : decode 0x1000000000001FFC = .ok (.decode 0x1FFC) := by decide
/-- ENCODE -300: OP 0010, RSVD, MDEG in two's complement. -/
theorem test_encode_word : decode (0x2#4 ++ 0#28 ++ 0xFFFFFED4#32) = .ok (.encode (-300)) := by decide
theorem test_encode_word_hex : decode 0x20000000FFFF9E58 = .ok (.encode (-25000)) := by decide
/-- PAGE_READ 602, 100: OP 0011, COUNT in [20:10], OFFSET in [9:0]. -/
theorem test_pageRead_word : decode (0x3#4 ++ 0#39 ++ 0b00001100100#11 ++ 0b1001011010#10) = .ok (.pageRead 602 100) := by
  decide
theorem test_pageRead_word_hex : decode 0x30000000001FFC7F = .ok (.pageRead 127 2047) := by decide
theorem test_bulkRead_word : decode (0x4#4 ++ 0#39 ++ 0b00000011001#11 ++ 0b1111101000#10) = .ok (.bulkRead 1000 25) := by
  decide
theorem test_bulkRead_word_hex : decode 0x4000000000100000 = .ok (.bulkRead 0 1024) := by decide
theorem test_invalidate_word : decode (0x5#4 ++ 0#60) = .ok .invalidate := by decide
theorem test_getPage_word : decode (0x6#4 ++ 0#60) = .ok .getPage := by decide
/-- V-IL-1, 2, 4, 6, 7 and 10: one word for each clause of R68, and V-IL-11. -/
theorem test_illegal_words :
    decode 0x0000000000000000 = .error .opcode ∧ decode 0x7000000000000000 = .error .opcode
    ∧ decode 0x1000000100000190 = .error .reserved ∧ decode 0x1000000000010190 = .error .decodeArg
    ∧ decode 0x3000000000200580 = .error .readArg ∧ decode 0x6000000000000100 = .error .controlArg
    ∧ decode 0x20000001FFFFFED4 = .error .reserved := by decide

/-! ### Small states, with the addresses and the content of 95_test_vectors.md section 2 -/

def cfgT : Params := ⟨0x0B, 128⟩

/-- A few bytes of the content L_T. -/
def memT : Memory := [(384, 0xEF), (640, 0x39), (641, 0x3A), (642, 0x3B), (643, 0x3C)]

/-- IDLE, with the cache at `cp` and the device on that page. -/
def idleT (cp : Option (BitVec 3)) (inputs : List Input) : State :=
  { State.reset with cfg := cfgT, cpValid := cp.isSome, cpPage := cp.getD 0, devPage := cp.getD 0,
                     mem := memT, inputs := inputs }

/-- PAGE_READ 640, 4 waits for the select of page 5; the cache names page 3 (V-PA-3). -/
def selT (inputs : List Input) : State :=
  { idleT (some 3) inputs with fsm := .selWait, off := 640, rem := 4, pg := 5, bus := [.pageSel 0x0B 5] }

/-- PAGE_READ 640, 4 waits for its window read (V-PA-3). -/
def pageT (inputs : List Input) : State :=
  { idleT (some 5) inputs with fsm := .rdWait, off := 640, rem := 4, pg := 5, n := 4, bus := [.winRead 0x80 4] }

/-- BULK_READ 760, 20 waits for the first of its two window reads, of 8 bytes. -/
def bulkT (inputs : List Input) : State :=
  { idleT (some 5) inputs with fsm := .rdWait, mode := .bulk, off := 760, rem := 20, pg := 5, n := 8,
                               bus := [.winRead 0xF8 8] }

/-- FAULT. -/
def faultT (inputs : List Input) : State :=
  { idleT (some 5) inputs with fsm := .fault, faultReason := .overlength }

/-- The next state, if the step answers one. -/
def after (s : State) : Option State :=
  match step s with
  | .next t => some t
  | _ => none

/-- The next state of an accepted command. -/
def cmd (cp : Option (BitVec 3)) (i : Instr) : Option State := after (idleT cp [commandInput i])

/-- The input of a step with a reset. -/
def rstT : Input := { rst := true }

/-! ### Instructions: at most two vectors each -/

/-- V-DE-14 and V-DE-19. -/
theorem test_decode_negative : (cmd none (.decode 0x1E70)).map (·.rspValue) = some 0xFFFF9E58 := by decide
theorem test_decode_ignored_bits : (cmd none (.decode 0xE004)).map (·.rspValue) = some 250 := by decide
/-- V-EN-12 and V-EN-25. -/
theorem test_encode_toward_zero : (cmd none (.encode (-300))).map (·.rspValue) = some 0x1FFC := by decide
theorem test_encode_clamps : (cmd none (.encode 256000)).map (·.rspValue) = some 0x0FFC := by decide
/-- V-PA-2 and V-PA-1: the request each command begins with. -/
theorem test_pageRead_hit : (cmd (some 3) (.pageRead 384 1)).map (·.bus) = some [.winRead 0x80 1] := by decide
theorem test_pageRead_miss : (cmd none (.pageRead 602 100)).map (·.bus) = some [.pageSel 0x0B 4] := by decide
/-- V-PA-24 and V-PA-9. -/
theorem test_bulkRead_range : (cmd none (.bulkRead 1000 25)).map (·.rspStatus) = some 0x3 := by decide
theorem test_bulkRead_first : (cmd (some 0) (.bulkRead 127 2)).map (·.bus) = some [.winRead 0xFF 1] := by decide
/-- V-CC-1. -/
theorem test_invalidate : (cmd (some 5) .invalidate).map (fun t => (t.cpValid, t.rspStatus)) = some (false, 0) := by
  decide
/-- V-CC-5 and V-CC-3. -/
theorem test_getPage_valid : (cmd (some 5) .getPage).map (·.rspValue) = some 0xD := by decide
theorem test_getPage_unknown : (cmd none .getPage).map (·.rspValue) = some 0 := by decide
/-- V-PA-3, last step: the bytes of page 5. -/
theorem test_window_bytes :
    (after (pageT [answerInput 1 (.ok 4)])).map (·.rspData) = some [0x39, 0x3A, 0x3B, 0x3C] := by decide
/-- The same: ACC takes the bytes too (10_state.md R26). -/
theorem test_pageRead_accumulates :
    (after (pageT [answerInput 1 (.ok 4)])).map (·.acc) = some [0x39, 0x3A, 0x3B, 0x3C] := by decide
/-- V-PA-17: a failed select. -/
theorem test_select_error :
    (after (selT [answerInput 1 (.err 0x06)])).map (fun t => (t.rspStatus, t.rspTerr, t.cpPage)) = some (1, 0x06, 3) := by
  decide
/-- V-PA-21: an over-length answer. -/
theorem test_overlength :
    (after (pageT [answerInput 1 (.okBytes [1, 2, 3, 4, 5])])).map (fun t => (t.fsm, t.cpPage)) = some (.fault, 5) := by
  decide

/-! ### States with the invariant, one for each control state -/

theorem inv_idleT (cp : Option (BitVec 3)) (inputs : List Input) : Inv (idleT cp inputs) := by
  constructor <;> simp [idleT, State.reset, State.busLock]
  decide

theorem inv_selT (inputs : List Input) : Inv (selT inputs) := by
  constructor
  case requests => intro r hr; obtain rfl := List.mem_singleton.mp hr; exact .inl ⟨5, rfl⟩
  case selWait =>
    intro _
    exact ⟨(by decide : (5 : BitVec 3) = pageOf 640), rfl, (by decide : 1 ≤ (4 : BitVec 11).toNat), rfl⟩
  all_goals first | (intro h; cases h; done) | simp [selT, idleT, State.reset, State.busLock]
  all_goals decide

theorem inv_pageT (inputs : List Input) : Inv (pageT inputs) := by
  constructor
  case requests =>
    intro r hr; obtain rfl := List.mem_singleton.mp hr; exact .inr ⟨640, 4, rfl, by decide, by decide⟩
  case rdWait =>
    intro _
    exact ⟨(by decide : (5 : BitVec 3) = pageOf 640), rfl, (by decide : 1 ≤ (4 : BitVec 11).toNat),
      (by decide : (4 : BitVec 8) = clampLen 640 4),
      (by decide : some (BusRequest.winRead 0x80 4) = some (winReadRequest cfgT 640 4))⟩
  all_goals first | (intro h; cases h; done) | simp [pageT, idleT, State.reset, State.busLock]
  all_goals decide

theorem inv_bulkT (inputs : List Input) : Inv (bulkT inputs) := by
  constructor
  case requests =>
    intro r hr; obtain rfl := List.mem_singleton.mp hr; exact .inr ⟨760, 8, rfl, by decide, by decide⟩
  case rdWait =>
    intro _
    exact ⟨(by decide : (5 : BitVec 3) = pageOf 760), rfl, (by decide : 1 ≤ (20 : BitVec 11).toNat),
      (by decide : (8 : BitVec 8) = clampLen 760 20),
      (by decide : some (BusRequest.winRead 0xF8 8) = some (winReadRequest cfgT 760 8))⟩
  all_goals first | (intro h; cases h; done) | simp [bulkT, idleT, State.reset, State.busLock]
  all_goals decide

theorem inv_faultT (inputs : List Input) : Inv (faultT inputs) := by
  constructor <;> simp [faultT, idleT, State.reset, State.busLock]
  decide

/-! ### Runs -/

/-- The run of `m + 1` steps ends in a completion with `p`. -/
def endsWith (m : Nat) (s : State) (p : State → Bool) : Bool :=
  match run (m + 1) s with
  | .next t => t.rspValid && p t
  | _ => false

/-- After `k` steps no command has just completed. -/
def quietAfter (k : Nat) (s : State) : Bool :=
  match run k s with
  | .next t => !t.rspValid
  | _ => false

theorem completesAfter_of {m : Nat} {s : State} {p : State → Bool} (h : endsWith m s p = true)
    (hq : ∀ j, j < m → quietAfter (j + 1) s = true) : ∃ t, completesAfter m s t ∧ p t = true := by
  unfold endsWith at h
  split at h
  · rename_i t ht
    rw [Bool.and_eq_true] at h
    refine ⟨t, ⟨ht, h.1, fun j u hj hu => ?_⟩, h.2⟩
    simpa [quietAfter, hu] using hq j hj
  · cases h

theorem lawful_command (i : Instr) : (commandInput i).lawful := ⟨rfl, rfl, by intro k bs h; cases h⟩
theorem lawful_ok (n k : Nat) : (answerInput n (.ok k)).lawful := ⟨rfl, rfl, by intro k bs h; cases h⟩

theorem lawful_full (i : Instr) (first count : Nat) :
    ∀ inp ∈ commandInput i :: fullAnswers first count, inp.lawful := by
  intro inp h
  rcases List.mem_cons.mp h with rfl | h
  · exact lawful_command i
  · obtain ⟨j, -, rfl⟩ := List.mem_map.mp h
    exact lawful_ok _ _

/-- BULK_READ 250, 10 from an unknown page: two selects and two reads (V-PA-7). -/
def bulkRunT : State := idleT none (commandInput (.bulkRead 250 10) :: fullAnswers 1 4)

/-- The same, the first window read failing. -/
def bulkErrT : State :=
  idleT none [commandInput (.bulkRead 250 10), answerInput 1 (.ok 0), answerInput 2 (.err 0x05)]

/-- PAGE_READ 640, 4 from an unknown page. -/
def pageRunT : State := idleT none (commandInput (.pageRead 640 4) :: fullAnswers 1 2)

theorem bulkRun_completes : ∃ t, completesAfter 4 bulkRunT t ∧ decide (t.rspStatus = 0) = true :=
  completesAfter_of (by decide) (by decide)
theorem bulkErr_completes : ∃ t, completesAfter 2 bulkErrT t ∧ decide (t.rspStatus ≠ 0) = true :=
  completesAfter_of (by decide) (by decide)
theorem pageRun_completes : ∃ t, completesAfter 2 pageRunT t ∧ decide (t.rspStatus = 0) = true :=
  completesAfter_of (by decide) (by decide)

/-- V-PA-3 as a whole run: the select, the read and the bytes of page 5. -/
theorem test_pageRead_run : endsWith 2 pageRunT (fun t => t.rspData = [0x39, 0x3A, 0x3B, 0x3C]) = true := by decide

/-! ### Witnesses: the hypotheses of each statement hold together somewhere -/

theorem witness_EncodeOfDecode : decode 0x300000000001925A = .ok (.pageRead 602 100) := by decide
/-- The ends of every range. -/
theorem witness_AssemblerMakesTheWordsOfTheTable :
    (Asm.decode 0xFFFF).assemble = some (.decode 0xFFFF)
    ∧ (Asm.encode (-2 ^ 31)).assemble = some (.encode 0x80000000)
    ∧ (Asm.encode (2 ^ 31 - 1)).assemble = some (.encode 0x7FFFFFFF)
    ∧ (Asm.pageRead 1023 2047).assemble = some (.pageRead 1023 2047)
    ∧ (Asm.bulkRead 1023 2047).assemble = some (.bulkRead 1023 2047)
    ∧ Asm.invalidate.assemble = some .invalidate ∧ Asm.getPage.assemble = some .getPage
    ∧ (Asm.pageRead 1024 0).wellFormed = false := by decide
theorem witness_StepRunsTheDecodedCommand :
    accepts (idleT none [commandInput (.decode 0x0190)]) 0x1000000000000190
    ∧ decode 0x1000000000000190 = .ok (.decode 0x0190) ∧ (Instr.decode 0x0190).wellFormed = true
    ∧ (idleT none [commandInput (.decode 0x0190)]).headInput.outOfBand = false := by
  refine ⟨⟨rfl, rfl, rfl⟩, ?_⟩; decide
theorem witness_IllegalWordCompletesErrIllegal :
    accepts (idleT (some 3) [{ cmd := some 0x7000000000000000 }]) 0x7000000000000000
    ∧ illegalWord 0x7000000000000000 := ⟨⟨rfl, rfl, rfl⟩, .inl (.inr (by decide))⟩
/-- Reset, IDLE, FAULT and a wait for an answer. -/
theorem witness_OneEventPerStep :
    (idleT none [rstT]).inputs = [rstT] ∧ rstT.rst = true
    ∧ (idleT none [{}]).fsm ≠ .selWait ∧ (idleT none [{}]).fsm ≠ .rdWait
    ∧ (faultT [{}]).fsm ≠ .selWait ∧ (faultT [{}]).fsm ≠ .rdWait
    ∧ (selT [{}]).fsm ≠ .idle ∧ (faultT [{}]).fsm ≠ .idle := ⟨rfl, rfl, by decide⟩
/-- No input in IDLE, and an answer to an older transaction while waiting. -/
theorem witness_StrayAnswersAreIgnored :
    ((idleT none []).headInput.rst = false ∧ (idleT none []).headInput.cmd = none ∧ (idleT none []).busLock = false)
    ∧ (pageT [answerInput 0 (.ok 1)]).headInput.rst = false ∧ (pageT [answerInput 0 (.ok 1)]).busLock = true
    ∧ ∀ ans, (pageT [answerInput 0 (.ok 1)]).headInput.resp ≠ some ((pageT [answerInput 0 (.ok 1)]).bus.length, ans) :=
  ⟨by decide, rfl, rfl, by intro ans h; cases h⟩

/-- IDLE, for DECODE, ENCODE, INVALIDATE, GET_PAGE and the purity of the codec. -/
theorem witness_idle : (idleT (some 3) []).fsm = .idle := rfl
theorem witness_CodecIsPure :
    (∃ raw, Instr.decode 0x0190 = .decode raw) ∧ (∃ mdeg, Instr.encode 250 = .encode mdeg) := ⟨⟨_, rfl⟩, _, rfl⟩
/-- The ends of the range of tdecode, its image and the clamp. -/
theorem witness_codec_ranges :
    tdecode 0x1000 = 250 * (-1024) ∧ tdecode 0x0FFC = 250 * 1023
    ∧ tdecode (tencode (-256000)) = -256000 ∧ tdecode (tencode 255750) = 255750
    ∧ clamp (-1) (-256000) 255750 ≤ 0 ∧ 0 ≤ clamp 0 (-256000) 255750 := by decide

/-- Not in RD_WAIT: in IDLE and in SEL_WAIT. -/
theorem witness_BlockDoesNotSeeTheDevicePage :
    ((idleT (some 3) [commandInput .getPage]).fsm ≠ .rdWait ∧ (cmd (some 3) .getPage).isSome)
    ∧ (selT [answerInput 1 (.ok 0)]).fsm ≠ .rdWait ∧ (after (selT [answerInput 1 (.ok 0)])).isSome := by decide
theorem witness_InvalidCacheForcesSelect :
    ((idleT none []).fsm = .idle ∧ (idleT none []).cpValid = false ∧ (1024 : BitVec 11) ≠ 0
      ∧ (0 : BitVec 10).toNat + (1024 : BitVec 11).toNat ≤ 1024)
    ∧ (Inv (selT [answerInput 1 (.err 6)]) ∧ (selT []).fsm = .selWait ∧ answered (selT [answerInput 1 (.err 6)]) (.err 6))
    ∧ Inv (selT [answerInput 1 (.ok 0)]) ∧ answered (selT [answerInput 1 (.ok 0)]) (.ok 0) ∧ ∀ e, Answer.ok 0 ≠ .err e :=
  ⟨by decide, ⟨inv_selT _, rfl, rfl, rfl⟩, inv_selT _, ⟨rfl, rfl⟩, by intro e h; cases h⟩
theorem witness_PageBoundaryClamp : 1 ≤ (2047 : BitVec 11).toNat ∧ (clampLen 127 2047).toNat = 1 := by decide
theorem witness_PageRead : (idleT none []).fsm = .idle ∧ (2047 : BitVec 11) ≠ 0 := ⟨rfl, by decide⟩
/-- Both sides of the limit: 1000 + 24 is 1024, 1000 + 25 is 1025. -/
theorem witness_BulkReadLimits :
    (idleT none []).fsm = .idle ∧ (24 : BitVec 11) ≠ 0 ∧ (1000 : BitVec 10).toNat + (24 : BitVec 11).toNat ≤ 1024
    ∧ (25 : BitVec 11) ≠ 0 ∧ 1024 < (1000 : BitVec 10).toNat + (25 : BitVec 11).toNat := by decide

theorem witness_SelectSucceeded :
    Inv (selT [answerInput 1 (.ok 0)]) ∧ (selT [answerInput 1 (.ok 0)]).fsm = .selWait
    ∧ answered (selT [answerInput 1 (.ok 0)]) (.ok 0) ∧ ∀ e, Answer.ok 0 ≠ .err e :=
  ⟨inv_selT _, rfl, ⟨rfl, rfl⟩, by intro e h; cases h⟩
theorem witness_SelectFailed :
    Inv (selT [answerInput 1 (.err 6)]) ∧ (selT [answerInput 1 (.err 6)]).fsm = .selWait
    ∧ answered (selT [answerInput 1 (.err 6)]) (.err 6) := ⟨inv_selT _, rfl, rfl, rfl⟩
/-- A full transfer of 4 bytes, and one of none. -/
theorem witness_PageReadCompletes :
    (Inv (pageT [answerInput 1 (.okBytes [1, 2, 3, 4])]) ∧ (pageT []).fsm = .rdWait ∧ (pageT []).mode = .page
      ∧ answered (pageT [answerInput 1 (.okBytes [1, 2, 3, 4])]) (.okBytes [1, 2, 3, 4]) ∧ [1, 2, 3, 4].length ≤ (pageT []).n.toNat)
    ∧ Inv (pageT [answerInput 1 (.okBytes [])]) ∧ answered (pageT [answerInput 1 (.okBytes [])]) (.okBytes []) :=
  ⟨⟨inv_pageT _, rfl, rfl, ⟨rfl, rfl⟩, (by decide : 4 ≤ (4 : BitVec 8).toNat)⟩, inv_pageT _, rfl, rfl⟩
/-- BULK_READ 640, 4 waiting for its only read: REM is N. -/
def bulkLastT (inputs : List Input) : State := { pageT inputs with mode := .bulk }
theorem inv_bulkLastT (inputs : List Input) : Inv (bulkLastT inputs) := by
  have h := inv_pageT inputs
  exact { memWf := h.memWf, status := h.status, errorEmpty := h.errorEmpty, terr := h.terr, dataLength := h.dataLength,
          accLength := h.accLength, faultReason := h.faultReason, rspValid := h.rspValid, requests := h.requests,
          selWait := h.selWait, rdWait := h.rdWait, page := (by intro _ hm; cases hm),
          bulk := (fun _ _ => (by decide : (640 : BitVec 10).toNat + (4 : BitVec 11).toNat ≤ 1024 ∧ 0 ≤ (640 : BitVec 10).toNat)) }
/-- The last read of a command, and one that is not the last. -/
theorem witness_BulkReadAdvances :
    (Inv (bulkLastT [answerInput 1 (.okBytes [1, 2, 3, 4])]) ∧ (bulkLastT []).fsm = .rdWait ∧ (bulkLastT []).mode = .bulk
      ∧ answered (bulkLastT [answerInput 1 (.okBytes [1, 2, 3, 4])]) (.okBytes [1, 2, 3, 4])
      ∧ [1, 2, 3, 4].length ≤ (bulkLastT []).n.toNat ∧ [1, 2, 3, 4].length = (bulkLastT []).rem.toNat)
    ∧ Inv (bulkT [answerInput 1 (.okBytes [1])]) ∧ (bulkT []).fsm = .rdWait ∧ (bulkT []).mode = .bulk
      ∧ answered (bulkT [answerInput 1 (.okBytes [1])]) (.okBytes [1]) ∧ 1 ≤ (bulkT []).n.toNat ∧ 1 ≠ (bulkT []).rem.toNat :=
  ⟨⟨inv_bulkLastT _, rfl, rfl, ⟨rfl, rfl⟩, (by decide : 4 ≤ (4 : BitVec 8).toNat), (by decide : 4 = (4 : BitVec 11).toNat)⟩,
    inv_bulkT _, rfl, rfl, ⟨rfl, rfl⟩, (by decide : 1 ≤ (8 : BitVec 8).toNat), (by decide : 1 ≠ (20 : BitVec 11).toNat)⟩
/-- With nothing out of band, and with another master acting in the step itself. -/
theorem witness_WindowReadObeysTheWindowLaw :
    (Inv (pageT [answerInput 1 (.ok 4)]) ∧ (pageT []).fsm = .rdWait ∧ answered (pageT [answerInput 1 (.ok 4)]) (.ok 4)
      ∧ (pageT [answerInput 1 (.ok 4)]).consume.interleaved = false)
    ∧ Inv (pageT [{ answerInput 1 (.ok 4) with outOfBand := true }])
      ∧ answered (pageT [{ answerInput 1 (.ok 4) with outOfBand := true }]) (.ok 4)
      ∧ (pageT [{ answerInput 1 (.ok 4) with outOfBand := true }]).consume.interleaved = true :=
  ⟨⟨inv_pageT _, rfl, ⟨rfl, rfl⟩, rfl⟩, inv_pageT _, ⟨rfl, rfl⟩, rfl⟩
theorem witness_WindowReadFailed :
    Inv (bulkT [answerInput 1 (.err 0x11)]) ∧ (bulkT []).fsm = .rdWait
    ∧ answered (bulkT [answerInput 1 (.err 0x11)]) (.err 0x11) := ⟨inv_bulkT _, rfl, rfl, rfl⟩
theorem witness_OverlengthAnswerFaults :
    Inv (pageT [answerInput 1 (.okBytes [1, 2, 3, 4, 5])]) ∧ (pageT []).fsm = .rdWait
    ∧ answered (pageT [answerInput 1 (.okBytes [1, 2, 3, 4, 5])]) (.okBytes [1, 2, 3, 4, 5])
    ∧ (pageT []).n.toNat < [1, 2, 3, 4, 5].length :=
  ⟨inv_pageT _, rfl, ⟨rfl, rfl⟩, (by decide : (4 : BitVec 8).toNat < 5)⟩
theorem witness_ZeroByteTransferRepeatsTheRead :
    Inv (bulkT [answerInput 1 (.okBytes [])]) ∧ (bulkT []).fsm = .rdWait ∧ (bulkT []).mode = .bulk
    ∧ answered (bulkT [answerInput 1 (.okBytes [])]) (.okBytes []) := ⟨inv_bulkT _, rfl, rfl, rfl, rfl⟩
theorem witness_ZeroByteAnswersNeverComplete :
    Inv (bulkT [answerInput 1 (.ok 0), answerInput 2 (.ok 0)]) ∧ (bulkT []).fsm = .rdWait ∧ (bulkT []).mode = .bulk
    ∧ (bulkT []).rspValid = false
    ∧ (bulkT [answerInput 1 (.ok 0), answerInput 2 (.ok 0)]).inputs
      = (List.range 2).map (fun j => answerInput ((bulkT []).bus.length + j) (.ok 0)) := ⟨inv_bulkT _, rfl, rfl, rfl, rfl⟩

/-- Into FAULT, in FAULT, and out of it by reset. -/
theorem witness_FaultIsStickyUntilReset :
    (Inv (pageT [answerInput 1 (.okBytes [1, 2, 3, 4, 5])]) ∧ (pageT []).fsm ≠ .fault
      ∧ (after (pageT [answerInput 1 (.okBytes [1, 2, 3, 4, 5])])).map (·.fsm) = some .fault)
    ∧ ((faultT [commandInput .getPage]).fsm = .fault ∧ (faultT [commandInput .getPage]).headInput.rst = false)
    ∧ (faultT [rstT]).fsm = .fault ∧ (faultT [rstT]).headInput.rst = true :=
  ⟨⟨inv_pageT _, by decide, by decide⟩, ⟨rfl, rfl⟩, rfl, rfl⟩
/-- Reset in FAULT, in IDLE and during a page select. -/
theorem witness_ResetLeavesTheResetValues :
    (faultT [rstT]).headInput.rst = true ∧ (idleT none [rstT]).headInput.rst = true
    ∧ (selT [rstT]).headInput.rst = true := ⟨rfl, rfl, rfl⟩

theorem witness_EveryStepKeepsTheInvariant :
    Inv (idleT none [commandInput (.bulkRead 250 10)]) ∧ Inv (selT [answerInput 1 (.ok 0)])
    ∧ Inv (pageT [answerInput 1 (.ok 4)]) ∧ Inv (bulkT [answerInput 1 (.ok 8)]) ∧ Inv (faultT [rstT]) :=
  ⟨inv_idleT _ _, inv_selT _, inv_pageT _, inv_bulkT _, inv_faultT _⟩
/-- The three events, a failed transaction, and the premises of each clause. -/
theorem witness_OnlyThreeEventsWriteTheCache :
    ((after (idleT (some 3) [rstT])).map (·.cpValid) = some false)
    ∧ (accepts (idleT (some 3) [commandInput .invalidate]) (encode .invalidate)
      ∧ (cmd (some 3) .invalidate).map (·.cpValid) = some false)
    ∧ (Inv (selT [answerInput 1 (.ok 0)]) ∧ answered (selT [answerInput 1 (.ok 0)]) (.ok 0)
      ∧ (after (selT [answerInput 1 (.ok 0)])).map (·.cpPage) = some 5)
    ∧ (selT [answerInput 1 (.err 6)]).busLock = true ∧ answered (selT [answerInput 1 (.err 6)]) (.err 6)
    ∧ (after (selT [answerInput 1 (.err 6)])).map (·.cpPage) = some 3 :=
  ⟨by decide, ⟨⟨rfl, rfl, rfl⟩, by decide⟩, ⟨inv_selT _, ⟨rfl, rfl⟩, by decide⟩, rfl, ⟨rfl, rfl⟩, by decide⟩
/-- A step for each arrow of the state machine. -/
theorem witness_FsmMovesOnlyByTheTable :
    (cmd none (.pageRead 640 4)).map (·.fsm) = some .selWait ∧ (cmd (some 5) (.bulkRead 640 4)).map (·.fsm) = some .rdWait
    ∧ (after (selT [answerInput 1 (.ok 0)])).map (·.fsm) = some .rdWait
    ∧ (after (selT [answerInput 1 (.err 6)])).map (·.fsm) = some .idle
    ∧ (after (pageT [answerInput 1 (.err 6)])).map (·.fsm) = some .idle
    ∧ (after (pageT [answerInput 1 (.ok 4)])).map (·.fsm) = some .idle
    ∧ (after (bulkT [answerInput 1 (.ok 8)])).map (·.fsm) = some .selWait := by decide
/-- A step that issues a transaction, and one that issues none. -/
theorem witness_TransactionsAreIssuedOnlyAtIssuePoints :
    (Inv (selT [answerInput 1 (.ok 0)]) ∧ issuePoint (selT [answerInput 1 (.ok 0)])
      ∧ (after (selT [answerInput 1 (.ok 0)])).map (·.bus.length) = some 2)
    ∧ (Inv (idleT none [])) ∧ ¬ issuePoint (idleT none []) := by
  refine ⟨⟨inv_selT _, .inr (.inr (.inl ⟨rfl, .ok 0, ⟨rfl, rfl⟩, by intro e h; cases h⟩)), by decide⟩, inv_idleT _ _, ?_⟩
  rintro (⟨_, _, ⟨_, _, h⟩, _⟩ | ⟨_, _, ⟨_, _, h⟩, _⟩ | ⟨h, _⟩ | ⟨h, _⟩) <;> cases h
theorem witness_NoWindowReadCrossesAPage :
    Inv (selT [answerInput 1 (.ok 0)])
    ∧ (after (selT [answerInput 1 (.ok 0)])).map (·.bus) = some (.winRead 0x80 4 :: (selT []).bus) := ⟨inv_selT _, by decide⟩
/-- A step that completes, and one that does not. -/
theorem witness_ResponseIsHeldUntilCompletion :
    ((pageT [answerInput 1 (.ok 4)]).headInput.rst = false ∧ (pageT []).busLock = true
      ∧ (after (pageT [answerInput 1 (.ok 4)])).map (·.rspValid) = some true)
    ∧ (after (bulkT [answerInput 1 (.ok 8)])).map (·.rspValid) = some false := by decide
theorem witness_NoErrorIsFatal :
    (after (idleT none [commandInput (.bulkRead 1000 25), commandInput .getPage])).map
      (fun t => (t.rspValid, decide (t.rspStatus ≠ 0), t.inputs)) = some (true, true, [commandInput .getPage]) := by decide
/-- bus_lock rises and falls. -/
theorem witness_BusLockCoversTheWholeRead :
    (Inv (idleT none [commandInput (.pageRead 640 4)]) ∧ (cmd none (.pageRead 640 4)).map (·.busLock) = some true)
    ∧ Inv (pageT [answerInput 1 (.ok 4)]) ∧ (after (pageT [answerInput 1 (.ok 4)])).map (·.busLock) = some false :=
  ⟨⟨inv_idleT _ _, by decide⟩, inv_pageT _, by decide⟩
theorem witness_NoStepWritesMemoryOrParameters : (cmd (some 3) .getPage).isSome := by decide
/-- BULK_READ 640, 4 waiting for the select of its first page. -/
def bulkSelT (inputs : List Input) : State := { selT inputs with mode := .bulk }
theorem inv_bulkSelT (inputs : List Input) : Inv (bulkSelT inputs) := by
  have h := inv_selT inputs
  exact { memWf := h.memWf, status := h.status, errorEmpty := h.errorEmpty, terr := h.terr, dataLength := h.dataLength,
          accLength := h.accLength, faultReason := h.faultReason, rspValid := h.rspValid, requests := h.requests,
          selWait := h.selWait, rdWait := h.rdWait, page := (by intro _ hm; cases hm),
          bulk := (fun _ _ => (by decide : (640 : BitVec 10).toNat + (4 : BitVec 11).toNat ≤ 1024 ∧ 0 ≤ (640 : BitVec 10).toNat)) }
/-- The failed select of a PAGE_READ, that of a BULK_READ, and a failed window read. -/
theorem witness_ErrorsAreNotRetried :
    (Inv (selT [answerInput 1 (.err 6)]) ∧ (selT []).busLock = true ∧ (selT []).mode = .page
      ∧ (selT []).fsm = .selWait ∧ answered (selT [answerInput 1 (.err 6)]) (.err 6))
    ∧ (Inv (bulkSelT [answerInput 1 (.err 6)]) ∧ (bulkSelT []).busLock = true ∧ (bulkSelT []).mode = .bulk
      ∧ (bulkSelT []).fsm = .selWait ∧ answered (bulkSelT [answerInput 1 (.err 6)]) (.err 6))
    ∧ Inv (bulkT [answerInput 1 (.err 6)]) ∧ (bulkT []).busLock = true
      ∧ answered (bulkT [answerInput 1 (.err 6)]) (.err 6) :=
  ⟨⟨inv_selT _, rfl, rfl, rfl, rfl, rfl⟩, ⟨inv_bulkSelT _, rfl, rfl, rfl, rfl, rfl⟩, inv_bulkT _, rfl, rfl, rfl⟩
/-- Interleaved before the step, and in it. -/
theorem witness_InterleavedReadsAreUnconstrained :
    (State.busLock { pageT [answerInput 1 (.ok 4)] with interleaved := true } = true
      ∧ (after { pageT [answerInput 1 (.ok 4)] with interleaved := true }).isSome)
    ∧ (bulkT [{ outOfBand := true }]).busLock = true ∧ (bulkT [{ outOfBand := true }]).headInput.outOfBand = true
      ∧ (after (bulkT [{ outOfBand := true }])).isSome := ⟨⟨rfl, rfl⟩, rfl, rfl, rfl⟩

theorem bulkRun_inputs : bulkRunT.inputs = commandInput (.bulkRead 250 10) :: fullAnswers 1 4 := rfl
theorem bulkRun_noReset : ∀ inp ∈ bulkRunT.inputs, inp.rst = false := fun inp h => (lawful_full _ _ _ inp h).1
/-- One run that ends OK and one that ends with an error. -/
theorem witness_BulkReadIsAllOrNothing :
    (accepts bulkRunT (encode (.bulkRead 250 10)) ∧ (∀ inp ∈ bulkRunT.inputs, inp.rst = false)
      ∧ ∃ t, completesAfter 4 bulkRunT t ∧ decide (t.rspStatus = 0) = true)
    ∧ accepts bulkErrT (encode (.bulkRead 250 10)) ∧ (∀ inp ∈ bulkErrT.inputs, inp.rst = false)
      ∧ ∃ t, completesAfter 2 bulkErrT t ∧ decide (t.rspStatus ≠ 0) = true :=
  ⟨⟨⟨rfl, rfl, rfl⟩, bulkRun_noReset, bulkRun_completes⟩, ⟨rfl, rfl, rfl⟩,
    (by decide : ∀ inp ∈ [commandInput (.bulkRead 250 10), answerInput 1 (.ok 0), answerInput 2 (.err 0x05)], inp.rst = false),
    bulkErr_completes⟩
theorem witness_BulkReadReturnsTheReferenceBytes :
    synced bulkRunT ∧ accepts bulkRunT (encode (.bulkRead 250 10)) ∧ (∀ inp ∈ bulkRunT.inputs, inp.lawful)
    ∧ ∃ t, completesAfter 4 bulkRunT t ∧ decide (t.rspStatus = 0) = true :=
  ⟨(fun h => by cases h), ⟨rfl, rfl, rfl⟩, lawful_full _ _ _, bulkRun_completes⟩
theorem witness_PageReadReturnsAReferencePrefix :
    synced pageRunT ∧ accepts pageRunT (encode (.pageRead 640 4)) ∧ (∀ inp ∈ pageRunT.inputs, inp.lawful)
    ∧ ∃ t, completesAfter 2 pageRunT t ∧ decide (t.rspStatus = 0) = true :=
  ⟨(fun h => by cases h), ⟨rfl, rfl, rfl⟩, lawful_full _ _ _, pageRun_completes⟩
/-- Part (a) has the runs of the two statements above; (b) and (c) a failed transaction; (d) an
illegal word, each read command of no bytes, and a BULK_READ out of range. -/
theorem witness_CacheAfterEachOutcome :
    ((10 : BitVec 11) ≠ 0 ∧ accepts bulkRunT (encode (.bulkRead 250 10))
      ∧ ∃ t, completesAfter 4 bulkRunT t ∧ decide (t.rspStatus = 0) = true)
    ∧ (Inv (selT [answerInput 1 (.err 6)]) ∧ answered (selT [answerInput 1 (.err 6)]) (.err 6) ∧ (selT []).fsm = .selWait)
    ∧ (Inv (pageT [answerInput 1 (.err 6)]) ∧ answered (pageT [answerInput 1 (.err 6)]) (.err 6) ∧ (pageT []).fsm = .rdWait)
    ∧ (accepts (idleT (some 3) [{ cmd := some 0x7000000000000000 }]) 0x7000000000000000 ∧ illegalWord 0x7000000000000000)
    ∧ accepts (idleT (some 3) [commandInput (.pageRead 640 0)]) (encode (.pageRead 640 0))
    ∧ accepts (idleT (some 3) [commandInput (.bulkRead 640 0)]) (encode (.bulkRead 640 0))
    ∧ accepts (idleT none [commandInput (.bulkRead 1000 25)]) (encode (.bulkRead 1000 25))
    ∧ 1024 < (1000 : BitVec 10).toNat + (25 : BitVec 11).toNat :=
  ⟨⟨by decide, ⟨rfl, rfl, rfl⟩, bulkRun_completes⟩, ⟨inv_selT _, ⟨rfl, rfl⟩, rfl⟩, ⟨inv_pageT _, ⟨rfl, rfl⟩, rfl⟩,
    witness_IllegalWordCompletesErrIllegal, ⟨rfl, rfl, rfl⟩, ⟨rfl, rfl, rfl⟩, ⟨rfl, rfl, rfl⟩, by decide⟩
/-- Two pages from an unknown cache (4 transactions), all eight (16), and one page (2, and 1 when the
cache names it). -/
theorem witness_TransactionCounts :
    (bulkRunT.fsm = .idle ∧ (10 : BitVec 11) ≠ 0 ∧ (250 : BitVec 10).toNat + (10 : BitVec 11).toNat ≤ 1024
      ∧ bulkRunT.inputs = commandInput (.bulkRead 250 10) :: fullAnswers (bulkRunT.bus.length + 1) 4 ++ [])
    ∧ ((1024 : BitVec 11) ≠ 0 ∧ (0 : BitVec 10).toNat + (1024 : BitVec 11).toNat ≤ 1024
      ∧ (idleT none (commandInput (.bulkRead 0 1024) :: fullAnswers 1 16)).inputs
        = commandInput (.bulkRead 0 1024) :: fullAnswers ((idleT none []).bus.length + 1) 16 ++ [])
    ∧ pageRunT.inputs = commandInput (.pageRead 640 4) :: fullAnswers (pageRunT.bus.length + 1) (1 + 1) ++ []
    ∧ (idleT (some 5) (commandInput (.pageRead 640 4) :: fullAnswers 1 1)).inputs
      = commandInput (.pageRead 640 4) :: fullAnswers ((idleT (some 5) []).bus.length + 1) (1 + 0) ++ [] :=
  ⟨⟨rfl, by decide, by decide, rfl⟩, ⟨by decide, by decide, rfl⟩, rfl, rfl⟩

/-- P4 of 95_test_vectors.md. -/
theorem witness_StaleCacheReadsTheWrongPage :
    (idleT (some 3) []).fsm = .idle ∧ (16 : BitVec 11) ≠ 0 ∧ (idleT (some 3) []).cpValid = true
    ∧ (idleT (some 3) []).cpPage = pageOf 448
    ∧ (idleT (some 3) [{ outOfBand := true, pageDraw := 6 }, commandInput (.pageRead 448 16), answerInput 1 (.ok 16)]).inputs
      = { outOfBand := true, pageDraw := 6 } :: commandInput (.pageRead 448 16)
        :: answerInput ((idleT (some 3) []).bus.length + 1) (.ok 16) :: []
    ∧ (idleT (some 3) [{ outOfBand := true, pageDraw := 6 }, commandInput .invalidate, commandInput (.pageRead 448 16),
        answerInput 1 (.ok 16), answerInput 2 (.ok 16)]).inputs
      = { outOfBand := true, pageDraw := 6 } :: commandInput .invalidate :: commandInput (.pageRead 448 16)
        :: answerInput ((idleT (some 3) []).bus.length + 1) (.ok 16)
        :: answerInput ((idleT (some 3) []).bus.length + 2) (.ok 16) :: [] :=
  ⟨rfl, by decide, rfl, by decide, rfl, rfl⟩
/-- P3 of 95_test_vectors.md, without its INVALIDATE. -/
theorem witness_FailedSelectMayMislead :
    (idleT (some 3) []).fsm = .idle ∧ (1 : BitVec 11) ≠ 0 ∧ (4 : BitVec 11) ≠ 0 ∧ (idleT (some 3) []).cpValid = true
    ∧ (idleT (some 3) []).cpPage = pageOf 384 ∧ pageOf 640 ≠ pageOf 384
    ∧ (idleT (some 3) [commandInput (.pageRead 640 4), { resp := some (1, .err 6), pageDraw := 5 },
        commandInput (.pageRead 384 1), answerInput 2 (.ok 1)]).inputs
      = commandInput (.pageRead 640 4) :: { resp := some ((idleT (some 3) []).bus.length + 1, .err 6), pageDraw := 5 }
        :: commandInput (.pageRead 384 1) :: answerInput ((idleT (some 3) []).bus.length + 2) (.ok 1) :: [] :=
  ⟨rfl, by decide, by decide, rfl, by decide, by decide, rfl⟩

end Sys2Proof.Tests
end

/-! PROOFS of the family 10_state.md: what reset leaves, and which events write the page cache. -/

namespace Sys2Proof

/-- The words of INVALIDATE: the one its encoding gives, and no other (30_encoding.md R66, R70). -/
theorem decode_eq_invalidate_iff (w : Command) : decode w = .ok .invalidate ↔ w = encode .invalidate := by
  constructor
  · intro h
    have hlt := w.isLt
    have hop := opField_toNat w
    have hrsvd := rsvdField_toNat w
    have harg := argField_toNat w
    unfold decode at h
    split at h
    · cases h
    · rename_i hr
      -- of the arms of the decoder only the one of OP = 5 and ARG = 0 answers INVALIDATE
      obtain ⟨h5, h0⟩ : (opField w).toNat = 5 ∧ argField w = 0 := by
        split at h <;> try cases h
        all_goals split at h <;> cases h
        exact ⟨‹_›, ‹_›⟩
      rw [not_not.mp hr] at hrsvd
      rw [h5] at hop
      rw [h0] at harg
      simp only [BitVec.ofNat_eq_ofNat, BitVec.toNat_ofNat] at hrsvd harg
      have hw : w.toNat = 5 * 2 ^ 60 := by omega
      exact BitVec.eq_of_toNat_eq (hw.trans (encode_toNat .invalidate).symm)
  · rintro rfl
    decide

end Sys2Proof

namespace Sys2Proof.Machine

open Host (Outcome)

/-! ### The status outputs in IDLE (10_state.md R28) -/

section StatusOutputs

variable {s : State}

theorem cmdReady_of_idle (h : s.fsm = .idle) : s.cmdReady = true := (cmdReady_iff s).mpr h
theorem busy_of_idle (h : s.fsm = .idle) : s.busy = false := by simp [State.busy, h]
theorem busLock_of_idle (h : s.fsm = .idle) : s.busLock = false := by simp [State.busLock, h]
theorem faulted_of_idle (h : s.fsm = .idle) : s.faulted = false := by simp [State.faulted, h]

end StatusOutputs

/-- Settles O39: the reset step is `onReset`, which writes every register of the block and leaves bus,
L and parameters as consuming the input left them. -/
theorem resetLeavesTheResetValues : Obligations.ResetLeavesTheResetValues := by
  have idle (s : State) : (onReset s.headInput s.consume).fsm = .idle := rfl
  have idle₀ : State.reset.fsm = .idle := rfl
  refine ⟨fun s hr => ⟨_, step_reset hr, ?_⟩, ?_⟩
  · refine ⟨rfl, rfl, idle s, rfl, rfl, rfl, rfl, rfl, rfl, rfl, cmdReady_of_idle (idle s),
      busy_of_idle (idle s), busLock_of_idle (idle s), faulted_of_idle (idle s), ?_, ?_, ?_⟩
    · exact consume_bus s
    · exact consume_mem s
    · exact consume_cfg s
  · exact ⟨rfl, rfl, idle₀, rfl, rfl, rfl, rfl, rfl, rfl, rfl, cmdReady_of_idle idle₀, busy_of_idle idle₀,
      busLock_of_idle idle₀, faulted_of_idle idle₀⟩

/-! ### What the operations of a step do to CP_VALID and CP_PAGE (10_state.md R22) -/

section Cache

variable {s t : State}

@[simp] theorem startRead_cpValid (m : Mode) (off : BitVec 10) (cnt : BitVec 11) (s : State) :
    (startRead m off cnt s).cpValid = s.cpValid := by simp [startRead]
@[simp] theorem startRead_cpPage (m : Mode) (off : BitVec 10) (cnt : BitVec 11) (s : State) :
    (startRead m off cnt s).cpPage = s.cpPage := by simp [startRead]

/-- No outcome of a window read writes the cache. -/
theorem onReadOk_cache (bytes : List Byte) (s : State) :
    (onReadOk bytes s).cpValid = s.cpValid ∧ (onReadOk bytes s).cpPage = s.cpPage := by
  rcases onReadOk_cases bytes s with ⟨-, h⟩ | ⟨-, -, h⟩ | ⟨-, -, -, h⟩ | ⟨-, -, -, h⟩ <;> simp [h]

/-- An accepted command writes the cache only if it is INVALIDATE, which clears CP_VALID. -/
theorem exec_cache {i : Instr} (hf : s.fsm = .idle) (h : exec i s = .next t) :
    (i = .invalidate ∧ t.cpValid = false ∧ t.cpPage = s.cpPage) ∨ (t.cpValid = s.cpValid ∧ t.cpPage = s.cpPage) := by
  rcases exec_cases (i := i) hf with ⟨v, h'⟩ | ⟨hi, h'⟩ | ⟨off, cnt, -, -, -, h'⟩ | ⟨off, cnt, -, -, h'⟩
    | ⟨off, cnt, -, -, -, h'⟩ <;> rw [h] at h' <;> cases h'
  case inr.inl => exact .inl ⟨hi, rfl, rfl⟩
  all_goals exact .inr (by simp)

/-- The answer to a page select writes the cache exactly if it is a success. -/
theorem onAnswer_pageSel_cache {inp : Input} {addr wdata : Byte} {ans : Answer}
    (h : onAnswer inp (.pageSel addr wdata) ans s = .next t) :
    ((∃ e, ans = .err e) ∧ t.cpValid = s.cpValid ∧ t.cpPage = s.cpPage)
    ∨ ((∀ e, ans ≠ .err e) ∧ t.cpValid = true ∧ t.cpPage = s.pg) := by
  cases ans with
  | err e => cases h; exact .inl ⟨⟨e, rfl⟩, rfl, rfl⟩
  | ok k | okBytes bs =>
    simp only [onAnswer] at h
    split at h <;> cases h
    exact .inr ⟨by simp, rfl, rfl⟩

/-- No answer to a window read writes the cache. -/
theorem onAnswer_winRead_cache {inp : Input} {addr len : Byte} {ans : Answer}
    (h : onAnswer inp (.winRead addr len) ans s = .next t) : t.cpValid = s.cpValid ∧ t.cpPage = s.cpPage := by
  cases ans with
  | err e => cases h; exact ⟨rfl, rfl⟩
  | okBytes bs => cases h; exact onReadOk_cache bs s
  | ok k =>
    replace h : deliver addr len k s = .next t := h
    rcases deliver_cases addr len k s with ⟨-, h'⟩ | ⟨-, -, h'⟩ | ⟨-, -, h'⟩ <;> rw [h] at h' <;> cases h'
    · exact onReadOk_cache _ { s with draws := _ }
    · exact onReadOk_cache _ s

/-- What a step can do to the cache, whatever the state: one of the three events of R22 writes it, or it
is left as it is. -/
theorem step_cache_cases (h : step s = .next t) :
    (s.headInput.rst = true ∧ t.cpValid = false)
    ∨ (accepts s (encode .invalidate) ∧ t.cpValid = false ∧ t.cpPage = s.cpPage)
    ∨ (s.fsm = .selWait ∧ (∃ ans, answered s ans ∧ ∀ e, ans ≠ .err e) ∧ t.cpValid = true ∧ t.cpPage = s.pg)
    ∨ (t.cpValid = s.cpValid ∧ t.cpPage = s.cpPage) := by
  rcases step_cases h with ⟨w, i, hr, hf, hc, hd, he⟩ | ⟨w, e, -, -, -, -, ho⟩ | ⟨hr, ho⟩
    | ⟨req, ans, hr, hreq, hresp, ha⟩ | ⟨-, -, -, ho⟩
  · rcases exec_cache ((consume_fsm s).trans hf) he with ⟨rfl, hv, hp⟩ | hkeep
    · rw [(decode_eq_invalidate_iff w).mp hd] at hc
      exact .inr (.inl ⟨⟨hr, hf, hc⟩, hv, by simpa using hp⟩)
    · exact .inr (.inr (.inr (by simpa using hkeep)))
  · cases ho; exact .inr (.inr (.inr (by simp)))
  · cases ho; exact .inl ⟨hr, rfl⟩
  · obtain ⟨-, ⟨hf, a, w, rfl⟩ | ⟨-, a, l, rfl⟩⟩ := outstanding_some hreq
    · rcases onAnswer_pageSel_cache ha with ⟨-, hkeep⟩ | ⟨hok, hv, hp⟩
      · exact .inr (.inr (.inr (by simpa using hkeep)))
      · exact .inr (.inr (.inl ⟨hf, ⟨ans, ⟨hr, hresp⟩, hok⟩, hv, by simpa using hp⟩))
    · exact .inr (.inr (.inr (by simpa using onAnswer_winRead_cache ha)))
  · cases ho; exact .inr (.inr (.inr (by simp)))

theorem step_reset_cpValid (hr : s.headInput.rst = true) (h : step s = .next t) : t.cpValid = false := by
  rw [step_reset hr] at h
  cases h
  rfl

theorem step_invalidate_cpValid (ha : accepts s (encode .invalidate)) (h : step s = .next t) :
    t.cpValid = false := by
  obtain ⟨hr, hf, hc⟩ := ha
  rw [step_legal hr hf hc ((decode_eq_invalidate_iff _).mpr rfl), exec, execInvalidate,
    whenReady_idle _ ((consume_fsm s).trans hf)] at h
  cases h
  rfl

/-- A success answer in SEL_WAIT is one to the page select, which the invariant says is outstanding. -/
theorem step_selectOk_cache {ans : Answer} (hi : Inv s) (hf : s.fsm = .selWait) (ha : answered s ans)
    (hok : ∀ e, ans ≠ .err e) (h : step s = .next t) : t.cpValid = true ∧ t.cpPage = s.pg := by
  obtain ⟨hr, hresp⟩ := ha
  obtain ⟨-, -, -, hbus⟩ := hi.selWait hf
  rw [step_answer hr (outstanding_selWait hf hbus) hresp] at h
  rcases onAnswer_pageSel_cache h with ⟨⟨e, he⟩, -⟩ | ⟨-, hv, hp⟩
  · exact absurd he (hok e)
  · exact ⟨hv, by simpa using hp⟩

/-- A failed transaction is none of the three events. -/
theorem step_failed_cache {e : Byte} (hb : s.busLock = true) (ha : answered s (.err e)) (h : step s = .next t) :
    t.cpValid = s.cpValid ∧ t.cpPage = s.cpPage := by
  obtain ⟨hr, hresp⟩ := ha
  rcases step_cache_cases h with ⟨hr', -⟩ | ⟨⟨-, hf, -⟩, -⟩ | ⟨-, ⟨ans, ⟨-, hresp'⟩, hok⟩, -⟩ | hkeep
  · simp [hr] at hr'
  · simp [busLock_of_idle hf] at hb
  · rw [hresp] at hresp'
    cases hresp'
    exact absurd rfl (hok e)
  · exact hkeep

end Cache

/-- Settles O42: the inversion of a step gives "only these", and each event is then followed through its
own step. -/
theorem onlyThreeEventsWriteTheCache : Obligations.OnlyThreeEventsWriteTheCache := fun _ _ hi h =>
  ⟨step_cache_cases h, fun hr => step_reset_cpValid hr h, fun ha => step_invalidate_cpValid ha h,
    fun hf _ ha hok => step_selectOk_cache hi hf ha hok h, fun hb _ ha => step_failed_cache hb ha h⟩

end Sys2Proof.Machine

/-! PROOFS of the family 20_memory.md: the translation of a linear offset, and the clamp to its page. -/

namespace Sys2Proof.Machine

/-! ### An offset and its two parts (20_memory.md R41, R42) -/

theorem offset_toNat_eq (off : BitVec 10) :
    off.toNat = 128 * (pageOf off).toNat + (intraOf off).toNat := by
  rw [pageOf_toNat, intraOf_toNat, Nat.div_add_mod]

/-- A concatenation has the high part at weight `2 ^ 7`: the low part fits below it, so nothing overlaps. -/
theorem append_toNat (page : BitVec 3) (intra : BitVec 7) :
    (page ++ intra).toNat = 128 * page.toNat + intra.toNat := by
  rw [BitVec.toNat_append, ← Nat.shiftLeft_add_eq_or_of_lt intra.isLt, Nat.shiftLeft_eq, Nat.mul_comm]

theorem pageOf_append_intraOf (off : BitVec 10) : pageOf off ++ intraOf off = off :=
  BitVec.eq_of_toNat_eq ((append_toNat _ _).trans (offset_toNat_eq off).symm)

/-! ### The window address (20_memory.md R43) -/

theorem winAddr_toNat_eq_base_add_intra (cfg : Params) (off : BitVec 10) :
    (winAddr cfg off).toNat = cfg.windowBase.val + (intraOf off).toNat := by
  rw [winAddr_toNat, intraOf_toNat]

/-- Settles O24: the values of page, intra-page offset and window address are those of the translation's
laws; the two parts rebuild the offset because division and remainder by 128 do. -/
theorem addressTranslation : Obligations.AddressTranslation := fun cfg off =>
  ⟨rfl, pageOf_toNat off, rfl, intraOf_toNat off, offset_toNat_eq off, (pageOf_append_intraOf off).symm,
    winAddr_toNat_eq_base_add_intra cfg off, Nat.le_of_lt_succ (winAddr cfg off).isLt⟩

/-! ### The clamp (20_memory.md R45) -/

theorem clampLen_toNat_eq_min_intra (off : BitVec 10) (rem : BitVec 11) :
    (clampLen off rem).toNat = min rem.toNat (128 - (intraOf off).toNat) := by
  rw [clampLen_toNat, intraOf_toNat]

theorem clampLen_le_page (off : BitVec 10) (rem : BitVec 11) : (clampLen off rem).toNat ≤ 128 :=
  (Nat.le_add_left _ _).trans (clampLen_in_page off rem)

/-- Settles O25: the clamp as arithmetic; a step of at least one byte asks for at least one, and for no
more than is left of the page. -/
theorem pageBoundaryClamp : Obligations.PageBoundaryClamp := fun off rem =>
  ⟨clampLen_toNat_eq_min_intra off rem, clampLen_in_page off rem,
    fun hrem => ⟨clampLen_pos hrem, clampLen_le_page off rem⟩⟩

end Sys2Proof.Machine

/-! PROOFS of the family 30_encoding.md: the decoder, the rules for illegal words and the opcode table
describe the same six forms of a word. -/

namespace Sys2Proof

/-- The word has one of the six legal forms, and `i` is the command its fields give: OP with RSVD and
the must-be-zero bits of its format (30_encoding.md R62 to R67). Decoder, table and R68 are each compared
with it. -/
inductive HasForm (w : Command) : Instr → Prop where
  | decode : rsvdField w = 0 → opField w = 1 → argAbove15 w = 0 → HasForm w (.decode (rawField w))
  | encode : rsvdField w = 0 → opField w = 2 → HasForm w (.encode (argField w))
  | pageRead : rsvdField w = 0 → opField w = 3 → argAbove20 w = 0 →
      HasForm w (.pageRead (offsetField w) (countField w))
  | bulkRead : rsvdField w = 0 → opField w = 4 → argAbove20 w = 0 →
      HasForm w (.bulkRead (offsetField w) (countField w))
  | invalidate : rsvdField w = 0 → opField w = 5 → argField w = 0 → HasForm w .invalidate
  | getPage : rsvdField w = 0 → opField w = 6 → argField w = 0 → HasForm w .getPage

section LegalForms

variable {w : Command} {i : Instr}

/-! ### The decoder and the legal forms -/

theorem decode_of_hasForm (h : HasForm w i) : decode w = .ok i := by
  cases h <;> simp [decode, *]

theorem hasForm_of_decode (h : decode w = .ok i) : HasForm w i := by
  unfold decode at h
  split at h
  case isTrue => cases h
  case isFalse hr =>
    have hr : rsvdField w = 0 := not_not.mp hr
    have opEq {o : BitVec 4} : (opField w).toNat = o.toNat → opField w = o := BitVec.eq_of_toNat_eq
    split at h
    case h_2 hop => cases h; exact .encode hr (opEq hop)
    case h_7 => cases h
    all_goals
      rename_i hop
      split at h <;> cases h
      rename_i harg
    · exact .decode hr (opEq hop) harg
    · exact .pageRead hr (opEq hop) harg
    · exact .bulkRead hr (opEq hop) harg
    · exact .invalidate hr (opEq hop) harg
    · exact .getPage hr (opEq hop) harg

theorem decode_eq_ok_iff_hasForm : decode w = .ok i ↔ HasForm w i :=
  ⟨hasForm_of_decode, decode_of_hasForm⟩

/-! ### The illegal words of R68 -/

theorem not_illegalWord_of_hasForm (h : HasForm w i) : ¬ illegalWord w := by
  cases h <;> simp [illegalWord, *]

/-- An operation code that clause (a) of R68 lets through is one of the six. -/
theorem legalOpcode_cases (o : BitVec 4) (h0 : o ≠ 0) (h7 : ¬ 7 ≤ o.toNat) :
    o = 1 ∨ o = 2 ∨ o = 3 ∨ o = 4 ∨ o = 5 ∨ o = 6 := by
  revert o
  decide

theorem exists_hasForm_of_not_illegalWord (h : ¬ illegalWord w) : ∃ i, HasForm w i := by
  simp only [illegalWord, not_or, not_and, not_not] at h
  obtain ⟨⟨h0, h7⟩, hr, hT16, hOC, hZ⟩ := h
  rcases legalOpcode_cases _ h0 h7 with hop | hop | hop | hop | hop | hop
  · exact ⟨_, .decode hr hop (hT16 hop)⟩
  · exact ⟨_, .encode hr hop⟩
  · exact ⟨_, .pageRead hr hop (hOC (.inl hop))⟩
  · exact ⟨_, .bulkRead hr hop (hOC (.inr hop))⟩
  · exact ⟨_, .invalidate hr hop (hZ (.inl hop))⟩
  · exact ⟨_, .getPage hr hop (hZ (.inr hop))⟩

theorem illegalWord_iff_forall_not_hasForm : illegalWord w ↔ ∀ i, ¬ HasForm w i := by
  constructor
  · exact fun h i hi => not_illegalWord_of_hasForm hi h
  · contrapose!
    exact exists_hasForm_of_not_illegalWord

theorem decode_error_of_illegalWord (h : illegalWord w) : ∃ e, decode w = .error e := by
  cases hd : decode w with
  | error e => exact ⟨e, rfl⟩
  | ok i => exact absurd h (not_illegalWord_of_hasForm (hasForm_of_decode hd))

/-! ### The opcode table and the legal forms (R70) -/

/-- Mask and match of a row test OP, RSVD and the must-be-zero bits of its format. -/
theorem covers_rows_fields (w : Command) :
    opcodeRows.map (·.covers w) =
      [ decide (rsvdField w = 0 ∧ opField w = 1 ∧ argAbove15 w = 0), decide (rsvdField w = 0 ∧ opField w = 2),
        decide (rsvdField w = 0 ∧ opField w = 3 ∧ argAbove20 w = 0),
        decide (rsvdField w = 0 ∧ opField w = 4 ∧ argAbove20 w = 0),
        decide (rsvdField w = 0 ∧ opField w = 5 ∧ argField w = 0),
        decide (rsvdField w = 0 ∧ opField w = 6 ∧ argField w = 0) ] := by
  have hlt := w.isLt
  rw [Laws.covers_rows]
  simp only [← BitVec.toNat_inj, opField_toNat, rsvdField_toNat, argField_toNat, argAbove15_toNat, argAbove20_toNat,
    BitVec.ofNat_eq_ofNat, BitVec.toNat_ofNat, List.cons.injEq, decide_eq_decide, and_true]
  refine ⟨?_, ?_, ?_, ?_, ?_, ?_⟩ <;> omega

theorem exists_row_iff_hasForm :
    (∃ r ∈ opcodeRows, r.covers w = true ∧ r.read w = i) ↔ HasForm w i := by
  have hrows := covers_rows_fields w
  simp only [opcodeRows, List.map, List.cons.injEq, and_true] at hrows
  obtain ⟨hdec, henc, hpage, hbulk, hinv, hget⟩ := hrows
  simp only [opcodeRows, List.mem_cons, List.not_mem_nil, or_false, exists_eq_or_imp, exists_eq_left,
    hdec, henc, hpage, hbulk, hinv, hget, decide_eq_true_eq]
  constructor
  · rintro (⟨⟨hr, hop, ha⟩, rfl⟩ | ⟨⟨hr, hop⟩, rfl⟩ | ⟨⟨hr, hop, ha⟩, rfl⟩ | ⟨⟨hr, hop, ha⟩, rfl⟩ |
      ⟨⟨hr, hop, ha⟩, rfl⟩ | ⟨⟨hr, hop, ha⟩, rfl⟩)
    · exact .decode hr hop ha
    · exact .encode hr hop
    · exact .pageRead hr hop ha
    · exact .bulkRead hr hop ha
    · exact .invalidate hr hop ha
    · exact .getPage hr hop ha
  · intro h
    cases h <;> simp [*]

/-- A row reads commands of its own mnemonic only. -/
theorem mnemonic_read_of_mem_opcodeRows {r : OpcodeRow} (h : r ∈ opcodeRows) (w : Command) :
    (r.read w).mnemonic = r.mnemonic := by
  simp only [opcodeRows, List.mem_cons, List.not_mem_nil, or_false] at h
  rcases h with rfl | rfl | rfl | rfl | rfl | rfl <;> rfl

theorem decode_eq_ok_iff_exists_row :
    decode w = .ok i ↔ ∃ r ∈ opcodeRows, r.covers w = true ∧ r.read w = i :=
  decode_eq_ok_iff_hasForm.trans exists_row_iff_hasForm.symm

/-- Two rows that cover a word both read from it the command it decodes to. -/
theorem mnemonic_unique_of_covers {r r' : OpcodeRow} (hr : r ∈ opcodeRows) (hr' : r' ∈ opcodeRows)
    (hc : r.covers w = true) (hc' : r'.covers w = true) : r.mnemonic = r'.mnemonic := by
  have hd : decode w = .ok (r.read w) := decode_eq_ok_iff_exists_row.mpr ⟨r, hr, hc, rfl⟩
  have hd' : decode w = .ok (r'.read w) := decode_eq_ok_iff_exists_row.mpr ⟨r', hr', hc', rfl⟩
  have hread : r.read w = r'.read w := Except.ok.inj (hd.symm.trans hd')
  rw [← mnemonic_read_of_mem_opcodeRows hr w, hread, mnemonic_read_of_mem_opcodeRows hr' w]

theorem no_row_covers_iff_illegalWord : (∀ r ∈ opcodeRows, r.covers w = false) ↔ illegalWord w := by
  simp only [illegalWord_iff_forall_not_hasForm, ← exists_row_iff_hasForm, ← Bool.not_eq_true]
  constructor
  · rintro h i ⟨r, hr, hc, -⟩
    exact h r hr hc
  · exact fun h r hr hc => h (r.read w) ⟨r, hr, hc, rfl⟩

end LegalForms

/-- Settles O3: table, decoder and R68 agree on the six legal forms. At most one row covers a word, since
each covering row reads the one command decoded, and the mnemonic is that command's. -/
theorem decodeSelectsTheUniqueTableRow : Obligations.DecodeSelectsTheUniqueTableRow := fun _ =>
  ⟨fun _ hr _ hr' hc hc' => mnemonic_unique_of_covers hr hr' hc hc', no_row_covers_iff_illegalWord,
    fun _ => decode_eq_ok_iff_exists_row⟩

end Sys2Proof

namespace Sys2Proof.Machine

/-- In IDLE a completion writes the response alone: FSM is already where it returns to. -/
theorem complete_of_idle {s : State} (hf : s.fsm = .idle) (st : Status) (v : BitVec 32) (d : List Byte) (e : Byte) :
    complete st v d e s =
      { s with rspStatus := statusCode st, rspValue := v, rspTerr := e, rspData := d, rspValid := true } := by
  rw [complete, ← hf]

/-- Settles O7: the decoder answers an illegal word with an error, and the word is accepted in IDLE, where
its completion changes the response alone (30_encoding.md R68; 60_exceptions.md R119). -/
theorem illegalWordCompletesErrIllegal : Obligations.IllegalWordCompletesErrIllegal := by
  rintro s w ⟨hr, hf, hc⟩ hw
  obtain ⟨e, hd⟩ := decode_error_of_illegalWord hw
  rw [step_illegal hr hf hc hd, completeIllegal_eq, complete_of_idle ((consume_fsm s).trans hf), statusCode]

end Sys2Proof.Machine

/-! PROOFS of the family 40_codec.md: an encoding carries its count of 250 millidegrees in bits [12:2],
and DECODE and ENCODE complete in IDLE with a value of the command word alone. -/

namespace Sys2Proof.Machine

/-! ### The field of a register value (40_codec.md R81, R83) -/

/-- A field of 11 bits moved to bits [12:2] loses nothing: 13 bits fit in 16. -/
theorem shiftedField_toNat (field : BitVec 11) : (field.setWidth 16 <<< 2).toNat = 4 * field.toNat := by
  have hlt := field.isLt
  simp only [BitVec.toNat_shiftLeft, BitVec.toNat_setWidth, Nat.shiftLeft_eq]
  omega

theorem extract_shiftedField (field : BitVec 11) : (field.setWidth 16 <<< 2).extractLsb' 2 11 = field := by
  have hlt := field.isLt
  apply BitVec.eq_of_toNat_eq
  rw [BitVec.extractLsb'_toNat, shiftedField_toNat, Nat.shiftRight_eq_div_pow]
  omega

/-! ### Clamp and truncating division (40_codec.md R83, R84) -/

theorem clamp_bounds (m : Int) {lo hi : Int} (h : lo ≤ hi) : lo ≤ clamp m lo hi ∧ clamp m lo hi ≤ hi :=
  ⟨le_min (le_max_right m lo) h, min_le_right _ _⟩

/-- The count of a clamped value fits 11 bits of two's complement: T_MIN and T_MAX are the counts -1024
and 1023, and division keeps the order. -/
theorem clampedCount_bounds (m : Int) :
    -1024 ≤ (clamp m tempMin tempMax).tdiv tempUnit ∧ (clamp m tempMin tempMax).tdiv tempUnit ≤ 1023 := by
  have hunit : 0 < tempUnit := by decide
  obtain ⟨hlo, hhi⟩ := clamp_bounds m (by decide : tempMin ≤ tempMax)
  exact ⟨Int.tdiv_le_tdiv hunit hlo, Int.tdiv_le_tdiv hunit hhi⟩

/-- What an encoding decodes to: the field holds the whole count, so only the division loses anything. -/
theorem tdecode_tencode (m : Int) :
    tdecode (tencode m) = tempUnit * (clamp m tempMin tempMax).tdiv tempUnit := by
  obtain ⟨hlo, hhi⟩ := clampedCount_bounds m
  rw [tdecode, tencode, extract_shiftedField, BitVec.toInt_ofInt_eq_self (by decide) hlo (Int.lt_add_one_of_le hhi)]

/-- The error of a truncating division is its remainder, which has the sign of the dividend. -/
theorem tdiv_error_of_nonneg {c d : Int} (hd : 0 < d) (hc : 0 ≤ c) :
    0 ≤ c - d * c.tdiv d ∧ c - d * c.tdiv d < d ∧ 0 ≤ d * c.tdiv d := by
  rw [← Int.tmod_def]
  exact ⟨Int.tmod_nonneg d hc, Int.tmod_lt_of_pos c hd, Int.mul_nonneg hd.le (Int.tdiv_nonneg hc hd.le)⟩

/-- Truncation is toward zero on both sides: the division commutes with negation. -/
theorem tdiv_error_of_nonpos {c d : Int} (hd : 0 < d) (hc : c ≤ 0) :
    c - d * c.tdiv d ≤ 0 ∧ -d < c - d * c.tdiv d ∧ d * c.tdiv d ≤ 0 := by
  have h := tdiv_error_of_nonneg hd (Int.neg_nonneg_of_nonpos hc)
  rw [Int.neg_tdiv, Int.mul_neg] at h
  omega

/-- Settles O16: an encoding decodes to the unit times the truncated count, so its error is the remainder
of that division. -/
theorem tencodeTruncatesTowardZero : Obligations.TencodeTruncatesTowardZero := by
  intro m c r
  have hunit : (0 : Int) < 250 := by decide
  have hr : r = 250 * c.tdiv 250 := tdecode_tencode m
  have hexample : tdecode (tencode (-300)) = -250 := tdecode_tencode (-300)
  rw [hr]
  exact ⟨tdiv_error_of_nonneg hunit, tdiv_error_of_nonpos hunit, rfl, hexample⟩

/-! ### The commands DECODE and ENCODE (40_codec.md R85, R86, R92) -/

/-- The register value ENCODE reports, as a number: four times the field. -/
theorem tencode_setWidth (m : Int) :
    (tencode m).setWidth 32 =
      BitVec.ofNat 32 (4 * (BitVec.ofInt 11 ((clamp m tempMin tempMax).tdiv tempUnit)).toNat) := by
  apply BitVec.eq_of_toNat_eq
  rw [tencode, BitVec.toNat_setWidth, shiftedField_toNat, BitVec.toNat_ofNat]

/-- A command that only completes OK writes, in IDLE, the response and nothing else. -/
theorem whenReady_completeOk_of_idle {s : State} (hf : s.fsm = .idle) (v : BitVec 32) (d : List Byte) :
    whenReady s (completeOk v d) = .next { s with
      rspStatus := 0x0, rspValue := v, rspTerr := 0, rspData := d, rspValid := true } := by
  rw [whenReady_idle _ hf, completeOk_eq, complete_of_idle hf, statusCode]

/-- Settles O10: the value of DECODE is `tdecode`, which is defined as 250 times the signed field. -/
theorem decodeReportsMillidegrees : Obligations.DecodeReportsMillidegrees := fun _ _ hf =>
  whenReady_completeOk_of_idle hf _ _

/-- Settles O11: the field is the pattern of the truncated count, and bits [12:2] hold it at weight 4. -/
theorem encodeReportsRegisterValue : Obligations.EncodeReportsRegisterValue := by
  intro s mdeg hf
  refine ⟨_, rfl, ?_⟩
  rw [exec, execEncode, tencode_setWidth]
  exact whenReady_completeOk_of_idle hf _ _

/-- Settles O19: each of the two commands is one completion whose value is fixed before the state is. -/
theorem codecIsPure : Obligations.CodecIsPure := by
  rintro i (⟨raw, rfl⟩ | ⟨mdeg, rfl⟩)
  · exact ⟨BitVec.ofInt 32 (tdecode raw), fun _ hf => whenReady_completeOk_of_idle hf _ _⟩
  · exact ⟨(tencode mdeg.toInt).setWidth 32, fun _ hf => whenReady_completeOk_of_idle hf _ _⟩

end Sys2Proof.Machine

/-! PROOFS of the family 41_page_access.md: the limits of the read commands, and a BULK_READ followed
from its acceptance to its completion. -/

namespace Sys2Proof.Machine

/-! ### The first step of a read command (41_page_access.md R94 to R96) -/

/-- The cache names the page of an offset: R96's comparison, on the numbers. -/
theorem cpNames_pageOf_iff (s : State) (off : BitVec 10) :
    s.cpNames (pageOf off) = true ↔ s.cpValid = true ∧ s.cpPage.toNat = off.toNat / 128 := by
  rw [State.cpNames, Bool.and_eq_true, beq_iff_eq, ← BitVec.toNat_inj, pageOf_toNat]

theorem pageOf_eq_ofNat (off : BitVec 10) : pageOf off = BitVec.ofNat 3 (off.toNat / 128) := by
  rw [← pageOf_toNat, BitVec.ofNat_toNat, BitVec.setWidth_eq]

theorem clampLen_eq_ofNat (off : BitVec 10) (rem : BitVec 11) :
    clampLen off rem = BitVec.ofNat 8 (min rem.toNat (128 - off.toNat % 128)) := by
  rw [clampLen, intraOf_toNat]

theorem winReadRequest_eq_ofNat (cfg : Params) (off : BitVec 10) (len : BitVec 8) :
    winReadRequest cfg off len = .winRead (BitVec.ofNat 8 (cfg.windowBase.val + off.toNat % 128)) len := by
  rw [winReadRequest, winAddr, intraOf_toNat]

theorem pageSelRequest_pageOf (cfg : Params) (off : BitVec 10) :
    pageSelRequest cfg (pageOf off) = .pageSel cfg.pageSelAddr (BitVec.ofNat 8 (off.toNat / 128)) := by
  rw [pageSelRequest, ← pageOf_toNat, BitVec.ofNat_toNat]

/-- The start of a read by StepIssue is the first step written out in arithmetic. -/
theorem startRead_eq_firstReadStep (mode : Mode) (off : BitVec 10) (cnt : BitVec 11) (s : State) :
    startRead mode off cnt s = firstReadStep mode off cnt s := by
  have hnames := cpNames_pageOf_iff s off
  rcases stepIssue_cases { s with mode := mode, off := off, rem := cnt, acc := [], interleaved := false } with
    ⟨hn, h⟩ | ⟨hn, h⟩
  · rw [startRead, h, firstReadStep, if_pos (hnames.mp hn), ← winReadRequest_eq_ofNat, ← clampLen_eq_ofNat,
      ← pageOf_eq_ofNat]
    rfl
  · have hno : ¬ (s.cpValid = true ∧ s.cpPage.toNat = off.toNat / 128) := by
      rw [← hnames, Bool.not_eq_true]
      exact hn
    rw [startRead, h, firstReadStep, if_neg hno, ← pageSelRequest_pageOf, ← pageOf_eq_ofNat]
    rfl

/-! ### The read commands in IDLE (R109, R110) -/

section ReadCommands

variable {s : State} {off : BitVec 10} {cnt : BitVec 11}

theorem exec_pageRead_zero (hf : s.fsm = .idle) : exec (.pageRead off 0) s = .next (complete .ok 0 [] 0 s) := by
  rw [exec, execPageRead, whenReady_idle _ hf, if_pos rfl, completeOk_eq]

theorem exec_bulkRead_zero (hf : s.fsm = .idle) : exec (.bulkRead off 0) s = .next (complete .ok 0 [] 0 s) := by
  rw [exec, execBulkRead, whenReady_idle _ hf, if_pos rfl, completeOk_eq]

theorem exec_bulkRead_pastEnd (hf : s.fsm = .idle) (h0 : cnt ≠ 0) (hend : 1024 < off.toNat + cnt.toNat) :
    exec (.bulkRead off cnt) s = .next (complete .errRange 0 [] 0 s) := by
  rw [exec, execBulkRead, whenReady_idle _ hf, if_neg h0, if_pos hend, completeRange_eq]

theorem exec_bulkRead_inRange (hf : s.fsm = .idle) (h0 : cnt ≠ 0) (hend : off.toNat + cnt.toNat ≤ 1024) :
    exec (.bulkRead off cnt) s = .next (startRead .bulk off cnt s) := by
  rw [exec, execBulkRead, whenReady_idle _ hf, if_neg h0, if_neg (Nat.not_lt.mpr hend)]

end ReadCommands

/-- Settles O26: with COUNT = 0 the command is one completion, which in IDLE writes the response alone. -/
theorem pageReadOfNothing : Obligations.PageReadOfNothing := by
  intro s off hf
  rw [exec_pageRead_zero hf, complete_of_idle hf, statusCode]

/-- Settles O28: two completions, which in IDLE write the response alone, and the start of the read. -/
theorem bulkReadLimits : Obligations.BulkReadLimits := by
  intro s off cnt hf
  refine ⟨?zero, fun h0 hend => ?pastEnd, fun h0 hend => ?inRange⟩
  case zero =>
    rintro rfl
    rw [exec_bulkRead_zero hf, complete_of_idle hf, statusCode]
  case pastEnd => rw [exec_bulkRead_pastEnd hf h0 hend, complete_of_idle hf, statusCode]
  case inRange => rw [exec_bulkRead_inRange hf h0 hend, startRead_eq_firstReadStep]

/-! ### Steps: the input list, and the steps of a waiting or stopped block -/

section Steps

variable {s t : State}

theorem headInput_rst_of_noReset (h : ∀ inp ∈ s.inputs, inp.rst = false) : s.headInput.rst = false := by
  unfold State.headInput
  cases hi : s.inputs with
  | nil => rfl
  | cons inp rest => exact h inp (by simp [hi])

theorem onReadOk_inputs (bytes : List Byte) (s : State) : (onReadOk bytes s).inputs = s.inputs := by
  rcases onReadOk_cases bytes s with ⟨-, h⟩ | ⟨-, -, h⟩ | ⟨-, -, -, h⟩ | ⟨-, -, -, h⟩ <;> simp [h]

theorem exec_inputs {i : Instr} (hf : s.fsm = .idle) (h : exec i s = .next t) : t.inputs = s.inputs := by
  rcases exec_cases (i := i) hf with ⟨v, h'⟩ | ⟨-, h'⟩ | ⟨off, cnt, -, -, -, h'⟩ | ⟨off, cnt, -, -, h'⟩
    | ⟨off, cnt, -, -, -, h'⟩ <;> rw [h] at h' <;> cases h' <;> simp [startRead]

/-- A step takes exactly its own input off the list. -/
theorem step_inputs (h : step s = .next t) : t.inputs = s.inputs.tail := by
  rcases step_cases h with ⟨w, i, -, hf, -, -, he⟩ | ⟨w, e, -, -, -, -, ho⟩ | ⟨-, ho⟩ | ⟨req, ans, -, -, -, ha⟩
    | ⟨-, -, -, ho⟩
  · rw [exec_inputs ((consume_fsm s).trans hf) he, consume_inputs]
  · cases ho; simp
  · cases ho; simp [onReset]
  · rcases onAnswer_cases ha with ⟨e, d, -, rfl⟩ | ⟨d, -, rfl⟩ | ⟨bytes, d, -, rfl⟩
    · simp
    · simp [onSelectOk]
    · simp [onReadOk_inputs]
  · cases ho; simp

theorem step_keeps_noReset (hi : ∀ inp ∈ s.inputs, inp.rst = false) (h : step s = .next t) :
    ∀ inp ∈ t.inputs, inp.rst = false := fun inp hinp =>
  hi inp (List.mem_of_mem_tail (step_inputs h ▸ hinp))

/-- In FAULT only a reset has an effect (60_exceptions.md R124). -/
theorem step_fault (hr : s.headInput.rst = false) (hf : s.fsm = .fault) : step s = .next s.consume := by
  have hnone : answerFor s.headInput s.consume = none := by
    simp [answerFor, State.outstanding, hf]
  rw [step_event (.inr (.inl (by simp [hf]))), onEvent, if_neg (by simp [hr])]
  simp only [hnone]

/-- What an answer to a page select leads to: the failure of the command, or the window read. -/
theorem onAnswer_pageSel_cases {inp : Input} {addr wdata : Byte} {ans : Answer}
    (h : onAnswer inp (.pageSel addr wdata) ans s = .next t) :
    (∃ e d, t = completeTransportError e { s with devPage := d }) ∨ (∃ d, t = onSelectOk { s with devPage := d }) := by
  cases ans with
  | err e => cases h; exact .inl ⟨e, _, rfl⟩
  | ok k | okBytes bs =>
    simp only [onAnswer] at h
    split at h <;> cases h
    exact .inr ⟨_, rfl⟩

/-- What an answer to a window read leads to: the failure of the command, or a transfer. -/
theorem onAnswer_winRead_cases {inp : Input} {addr len : Byte} {ans : Answer}
    (h : onAnswer inp (.winRead addr len) ans s = .next t) :
    (∃ e d, t = completeTransportError e { s with devPage := d })
    ∨ (∃ bytes d, t = onReadOk bytes { s with draws := d }) := by
  cases ans with
  | err e => cases h; exact .inl ⟨e, s.devPage, rfl⟩
  | okBytes bs => cases h; exact .inr ⟨bs, s.draws, rfl⟩
  | ok k =>
    replace h : deliver addr len k s = .next t := h
    rcases deliver_cases addr len k s with ⟨-, h'⟩ | ⟨-, -, h'⟩ | ⟨-, -, h'⟩ <;> rw [h] at h' <;> cases h'
    · exact .inr ⟨_, _, rfl⟩
    · exact .inr ⟨_, s.draws, rfl⟩

/-- What a step without reset can do while a read waits for the transport: nothing, fail the command,
go from the select to the window read, or take the bytes of the window read. -/
theorem step_waiting_cases (hr : s.headInput.rst = false) (hb : s.busLock = true) (h : step s = .next t) :
    t = s.consume
    ∨ (∃ e d, t = completeTransportError e { s.consume with devPage := d })
    ∨ (∃ d, t = onSelectOk { s.consume with devPage := d })
    ∨ (s.fsm = .rdWait ∧ ∃ bytes d, t = onReadOk bytes { s.consume with draws := d }) := by
  have hidle : s.fsm ≠ .idle := fun hf => by simp [busLock_of_idle hf] at hb
  rcases step_cases h with ⟨w, i, -, hf, -⟩ | ⟨w, e, -, hf, -⟩ | ⟨hr', -⟩ | ⟨req, ans, -, hreq, -, ha⟩
    | ⟨-, -, -, ho⟩
  · exact absurd hf hidle
  · exact absurd hf hidle
  · simp [hr] at hr'
  · obtain ⟨-, ⟨-, a, w, rfl⟩ | ⟨hf, a, l, rfl⟩⟩ := outstanding_some hreq
    · rcases onAnswer_pageSel_cases ha with hfail | hsel
      · exact .inr (.inl hfail)
      · exact .inr (.inr (.inl hsel))
    · rcases onAnswer_winRead_cases ha with hfail | hread
      · exact .inr (.inl hfail)
      · exact .inr (.inr (.inr ⟨hf, hread⟩))
  · cases ho; exact .inl rfl

end Steps

/-! ### A BULK_READ from its acceptance to its completion (R100, R104) -/

/-- The response a BULK_READ of `cnt` bytes may complete with: an error without value and data, or OK
with all `cnt` bytes (R104). -/
def AllOrNothing (cnt : BitVec 11) (t : State) : Prop :=
  (t.rspStatus ≠ 0 → t.rspValue = 0 ∧ t.rspData = [])
  ∧ (t.rspStatus = 0 → t.rspData.length = cnt.toNat ∧ t.rspValue.toNat = cnt.toNat)

/-- A BULK_READ of `cnt` bytes waits for the transport. The bytes in ACC and those still wanted make up
`cnt`, and the window read in progress asks for no more than are wanted: so the read that ends the
command ends it with exactly `cnt` bytes. -/
structure BulkUnderWay (cnt : BitVec 11) (s : State) : Prop where
  mode : s.mode = .bulk
  locked : s.busLock = true
  noResponse : s.rspValid = false
  bytes : s.acc.length + s.rem.toNat = cnt.toNat
  clamped : s.fsm = .rdWait → s.n.toNat ≤ s.rem.toNat

/-- Where an accepted BULK_READ of `cnt` bytes can stand while there is no reset. -/
inductive BulkPhase (cnt : BitVec 11) (s : State) : Prop where
  | running : BulkUnderWay cnt s → BulkPhase cnt s
  | stopped : s.fsm = .fault → s.rspValid = false → BulkPhase cnt s
  | ended : s.rspValid = true → AllOrNothing cnt s → BulkPhase cnt s

section BulkRead

variable {cnt : BitVec 11} {s t : State}

theorem bulkPhase_error {st : Status} (hst : statusCode st ≠ 0) (e : Byte) (s : State) :
    BulkPhase cnt (complete st 0 [] e s) :=
  .ended rfl ⟨fun _ => ⟨rfl, rfl⟩, fun h => absurd h hst⟩

theorem bulkPhase_ok {data : List Byte} (hlen : data.length = cnt.toNat) (s : State) :
    BulkPhase cnt (complete .ok (BitVec.ofNat 32 data.length) data 0 s) := by
  have hlt := cnt.isLt
  refine .ended rfl ⟨fun h => absurd rfl h, fun _ => ⟨hlen, ?_⟩⟩
  rw [complete_rspValue, hlen, BitVec.toNat_ofNat]
  omega

/-- Every step of the read is begun by StepIssue, whose clamp bounds N by REM (R45). -/
theorem bulkUnderWay_stepIssue (hm : s.mode = .bulk) (hv : s.rspValid = false)
    (hbytes : s.acc.length + s.rem.toNat = cnt.toNat) : BulkUnderWay cnt (stepIssue s) where
  mode := by simpa using hm
  locked := stepIssue_busLock s
  noResponse := by simpa using hv
  bytes := by simpa using hbytes
  clamped := by
    rcases stepIssue_cases s with ⟨-, h⟩ | ⟨-, h⟩ <;> rw [h]
    · exact fun _ => clampLen_le_rem s.off s.rem
    · exact fun hf => by simp at hf

theorem BulkUnderWay.consume (h : BulkUnderWay cnt s) : BulkUnderWay cnt s.consume where
  mode := by simpa using h.mode
  locked := by simpa using h.locked
  noResponse := consume_rspValid s
  bytes := by simpa using h.bytes
  clamped := by simpa using h.clamped

theorem BulkUnderWay.onSelectOk (h : BulkUnderWay cnt s) (d : BitVec 3) :
    BulkUnderWay cnt (onSelectOk { s with devPage := d }) where
  mode := h.mode
  locked := rfl
  noResponse := h.noResponse
  bytes := h.bytes
  clamped _ := clampLen_le_rem s.off s.rem

/-- A transfer stops the block, ends the command with all its bytes, or begins the next step. -/
theorem BulkUnderWay.onReadOk (h : BulkUnderWay cnt s) (hf : s.fsm = .rdWait) (bytes : List Byte) (d : Nat) :
    BulkPhase cnt (onReadOk bytes { s with draws := d }) := by
  have hn := h.clamped hf
  have hbytes := h.bytes
  have hrem := s.rem.isLt
  rcases onReadOk_cases bytes { s with draws := d } with ⟨-, ho⟩ | ⟨-, hpage, -⟩ | ⟨hle, -, hall, ho⟩
    | ⟨-, -, hmore, ho⟩
  · rw [ho]; exact .stopped rfl h.noResponse
  · rw [h.mode] at hpage; cases hpage
  · dsimp only at hle hall
    have hlen : (s.acc ++ bytes).length = cnt.toNat := by rw [List.length_append]; omega
    rw [ho, ← List.length_append]
    exact bulkPhase_ok hlen _
  · dsimp only at hmore
    rw [ho]
    refine .running (bulkUnderWay_stepIssue h.mode h.noResponse ?_)
    simp only [List.length_append, BitVec.toNat_ofNat]
    omega

theorem BulkUnderWay.step (h : BulkUnderWay cnt s) (hr : s.headInput.rst = false) (hs : step s = .next t) :
    BulkPhase cnt t := by
  rcases step_waiting_cases hr h.locked hs with rfl | ⟨e, d, rfl⟩ | ⟨d, rfl⟩ | ⟨hf, bytes, d, rfl⟩
  · exact .running h.consume
  · exact bulkPhase_error (by decide) e _
  · exact .running (h.consume.onSelectOk d)
  · exact h.consume.onReadOk ((consume_fsm s).trans hf) bytes d

/-- Until the command completes, a step without reset keeps it in one of its phases. -/
theorem BulkPhase.step (h : BulkPhase cnt s) (hv : s.rspValid = false) (hr : s.headInput.rst = false)
    (hs : step s = .next t) : BulkPhase cnt t := by
  cases h with
  | running hrun => exact hrun.step hr hs
  | stopped hf _ =>
    rw [step_fault hr hf] at hs
    cases hs
    exact .stopped ((consume_fsm s).trans hf) (consume_rspValid s)
  | ended hv' _ => simp [hv] at hv'

theorem BulkPhase.allOrNothing (h : BulkPhase cnt s) (hv : s.rspValid = true) : AllOrNothing cnt s := by
  cases h with
  | running hrun => simp [hrun.noResponse] at hv
  | stopped _ hv' => simp [hv'] at hv
  | ended _ hq => exact hq

theorem exec_bulkRead_phase (off : BitVec 10) (hf : s.fsm = .idle) (hv : s.rspValid = false) :
    ∃ u, exec (.bulkRead off cnt) s = .next u ∧ BulkPhase cnt u := by
  by_cases h0 : cnt = 0
  · subst h0
    exact ⟨_, exec_bulkRead_zero hf, bulkPhase_ok (data := []) rfl s⟩
  · by_cases hend : 1024 < off.toNat + cnt.toNat
    · exact ⟨_, exec_bulkRead_pastEnd hf h0 hend, bulkPhase_error (by decide) 0 s⟩
    · exact ⟨_, exec_bulkRead_inRange hf h0 (Nat.not_lt.mp hend),
        .running (bulkUnderWay_stepIssue rfl hv (Nat.zero_add _))⟩

/-- The word of a BULK_READ has the form R64 gives it, and its fields are the operands. -/
theorem decode_encode_bulkRead (off : BitVec 10) (cnt : BitVec 11) :
    decode (encode (.bulkRead off cnt)) = .ok (.bulkRead off cnt) := by
  have hw : (encode (.bulkRead off cnt)).toNat = 4 * 2 ^ 60 + cnt.toNat * 2 ^ 10 + off.toNat := encode_toNat _
  generalize encode (.bulkRead off cnt) = w at hw
  have hoff := off.isLt
  have hcnt := cnt.isLt
  have hr : rsvdField w = 0 := BitVec.eq_of_toNat_eq (by rw [rsvdField_toNat, hw]; bv_omega)
  have hop : opField w = 4 := BitVec.eq_of_toNat_eq (by rw [opField_toNat, hw]; bv_omega)
  have hmbz : argAbove20 w = 0 := BitVec.eq_of_toNat_eq (by rw [argAbove20_toNat, hw]; bv_omega)
  have ho : offsetField w = off := BitVec.eq_of_toNat_eq (by rw [offsetField_toNat, hw]; omega)
  have hc : countField w = cnt := BitVec.eq_of_toNat_eq (by rw [countField_toNat, hw]; omega)
  have hform := decode_of_hasForm (.bulkRead hr hop hmbz)
  rwa [ho, hc] at hform

theorem step_accepts_bulkRead {off : BitVec 10} (ha : accepts s (encode (.bulkRead off cnt))) :
    ∃ u, step s = .next u ∧ BulkPhase cnt u := by
  obtain ⟨hr, hf, hc⟩ := ha
  rw [step_legal hr hf hc (decode_encode_bulkRead off cnt)]
  exact exec_bulkRead_phase off ((consume_fsm s).trans hf) (consume_rspValid s)

end BulkRead

/-- Settles O52: the phases of the command are kept by every step until it completes, and a completed
phase is all or nothing. -/
theorem bulkReadIsAllOrNothing : Obligations.BulkReadIsAllOrNothing := by
  intro s t off cnt m ha hnr hc
  obtain ⟨u, hs, hu⟩ := step_accepts_bulkRead ha
  refine completesAfter_induct (Q := AllOrNothing cnt)
    (P := fun a => (∀ inp ∈ a.inputs, inp.rst = false) ∧ a.rspValid = false ∧ BulkPhase cnt a)
    (fun a b ⟨hi, hv, hp⟩ hab => ?_) hs (fun hv => ⟨step_keeps_noReset hnr hs, hv, hu⟩) hu.allOrNothing hc
  have hb := hp.step hv (headInput_rst_of_noReset hi) hab
  exact ⟨fun hv' => ⟨step_keeps_noReset hi hab, hv', hb⟩, hb.allOrNothing⟩

end Sys2Proof.Machine

/-! PROOFS of the family 60_exceptions.md: the one way into FAULT, and a block that runs its next command
after every completion. -/

namespace Sys2Proof

/-! ### The words of the encoder have the legal forms (30_encoding.md R61 to R67) -/

section Layout

variable (op : BitVec 4) (arg : BitVec 32)

/-- The number of a word put together of OP, RSVD = 0 and ARG. -/
theorem layout_toNat : (op ++ 0#28 ++ arg : Command).toNat = op.toNat * 2 ^ 60 + arg.toNat := by
  rw [append_toNat_add, append_toNat_add, BitVec.toNat_ofNat]
  omega

theorem opField_layout : opField (op ++ 0#28 ++ arg) = op := by
  apply BitVec.eq_of_toNat_eq
  rw [opField_toNat, layout_toNat]
  omega

theorem rsvdField_layout : rsvdField (op ++ 0#28 ++ arg) = 0 := by
  apply BitVec.eq_of_toNat_eq
  rw [rsvdField_toNat, layout_toNat]
  bv_omega

theorem argField_layout : argField (op ++ 0#28 ++ arg) = arg := by
  apply BitVec.eq_of_toNat_eq
  rw [argField_toNat, layout_toNat]
  omega

/-- ARG of a DECODE: bits [31:16] are zero, and RAW is below them. -/
theorem rawFields_layout (raw : BitVec 16) :
    argAbove15 (op ++ 0#28 ++ (0#16 ++ raw)) = 0 ∧ rawField (op ++ 0#28 ++ (0#16 ++ raw)) = raw := by
  have hw : (op ++ 0#28 ++ (0#16 ++ raw) : Command).toNat = op.toNat * 2 ^ 60 + raw.toNat := by
    rw [layout_toNat, append_toNat_add, BitVec.toNat_ofNat]
    omega
  constructor <;> apply BitVec.eq_of_toNat_eq
  · rw [argAbove15_toNat, hw]
    bv_omega
  · rw [rawField_toNat, hw]
    omega

/-- ARG of a read command: bits [31:21] are zero, COUNT is below them and OFFSET below COUNT. -/
theorem readFields_layout (offset : BitVec 10) (count : BitVec 11) :
    argAbove20 (op ++ 0#28 ++ (0#11 ++ count ++ offset)) = 0
    ∧ offsetField (op ++ 0#28 ++ (0#11 ++ count ++ offset)) = offset
    ∧ countField (op ++ 0#28 ++ (0#11 ++ count ++ offset)) = count := by
  have hw : (op ++ 0#28 ++ (0#11 ++ count ++ offset) : Command).toNat
      = op.toNat * 2 ^ 60 + count.toNat * 2 ^ 10 + offset.toNat := by
    rw [layout_toNat, append_toNat_add, append_toNat_add, BitVec.toNat_ofNat]
    omega
  refine ⟨BitVec.eq_of_toNat_eq ?_, BitVec.eq_of_toNat_eq ?_, BitVec.eq_of_toNat_eq ?_⟩
  · rw [argAbove20_toNat, hw]
    bv_omega
  · rw [offsetField_toNat, hw]
    omega
  · rw [countField_toNat, hw]
    omega

end Layout

/-- The word of every command has the form of that command, with its operands in the fields. -/
theorem hasForm_encode (i : Instr) : HasForm (encode i) i := by
  cases i with
  | decode raw =>
    obtain ⟨hmbz, hraw⟩ := rawFields_layout 1 raw
    have h := HasForm.decode (rsvdField_layout _ _) (opField_layout _ _) hmbz
    rwa [hraw] at h
  | encode mdeg =>
    have h := HasForm.encode (rsvdField_layout 2 mdeg) (opField_layout 2 mdeg)
    rwa [argField_layout] at h
  | pageRead offset count =>
    obtain ⟨hmbz, hoffset, hcount⟩ := readFields_layout 3 offset count
    have h := HasForm.pageRead (rsvdField_layout _ _) (opField_layout _ _) hmbz
    rwa [hoffset, hcount] at h
  | bulkRead offset count => exact hasForm_of_decode (Machine.decode_encode_bulkRead offset count)
  | invalidate => exact .invalidate (rsvdField_layout 5 0) (opField_layout 5 0) (argField_layout 5 0)
  | getPage => exact .getPage (rsvdField_layout 6 0) (opField_layout 6 0) (argField_layout 6 0)

theorem decode_encode (i : Instr) : decode (encode i) = .ok i := decode_of_hasForm (hasForm_encode i)

end Sys2Proof

namespace Sys2Proof.Machine

/-! ### A completion leaves the block in IDLE (60_exceptions.md R123, R128) -/

section Completion

variable {s t : State}

/-- A transfer raises rsp_valid only by a completion. -/
theorem onReadOk_idle_of_rspValid {bytes : List Byte} (hv : s.rspValid = false)
    (hc : (onReadOk bytes s).rspValid = true) : (onReadOk bytes s).fsm = .idle := by
  rcases onReadOk_cases bytes s with ⟨-, h⟩ | ⟨-, -, h⟩ | ⟨-, -, -, h⟩ | ⟨-, -, -, h⟩ <;> rw [h] at hc ⊢
  · simp [hv] at hc
  · rfl
  · rfl
  · simp [hv] at hc

/-- An accepted command raises rsp_valid only by a completion: a read that starts leaves it low. -/
theorem exec_idle_of_rspValid {i : Instr} (hf : s.fsm = .idle) (hv : s.rspValid = false)
    (h : exec i s = .next t) (hc : t.rspValid = true) : t.fsm = .idle := by
  rcases exec_cases (i := i) hf with ⟨v, h'⟩ | ⟨-, h'⟩ | ⟨off, cnt, -, -, -, h'⟩ | ⟨off, cnt, -, -, h'⟩
    | ⟨off, cnt, -, -, -, h'⟩ <;> rw [h] at h' <;> cases h'
  · rfl
  · rfl
  · rfl
  · simp [startRead, hv] at hc
  · simp [startRead, hv] at hc

theorem onAnswer_idle_of_rspValid {inp : Input} {req : BusRequest} {ans : Answer} (hv : s.rspValid = false)
    (h : onAnswer inp req ans s = .next t) (hc : t.rspValid = true) : t.fsm = .idle := by
  rcases onAnswer_cases h with ⟨e, d, -, rfl⟩ | ⟨d, -, rfl⟩ | ⟨bytes, d, -, rfl⟩
  · rfl
  · simp [onSelectOk, hv] at hc
  · exact onReadOk_idle_of_rspValid hv hc

/-- A step that completes a command ends in IDLE, whatever the state before it: consuming the input
lowers rsp_valid, and only a completion raises it again. -/
theorem step_idle_of_rspValid (h : step s = .next t) (hc : t.rspValid = true) : t.fsm = .idle := by
  rcases step_cases h with ⟨w, i, -, hf, -, -, he⟩ | ⟨w, e, -, -, -, -, ho⟩ | ⟨-, ho⟩ | ⟨req, ans, -, -, -, ha⟩
    | ⟨-, -, -, ho⟩
  · exact exec_idle_of_rspValid ((consume_fsm s).trans hf) (consume_rspValid s) he hc
  · cases ho; rfl
  · cases ho; rfl
  · exact onAnswer_idle_of_rspValid (consume_rspValid s) ha hc
  · cases ho; simp at hc

/-- In IDLE the block runs whatever command is presented next, on the state whose input is consumed. -/
theorem step_commandInput {i : Instr} {rest : List Input} (hf : s.fsm = .idle)
    (hi : s.inputs = commandInput i :: rest) :
    step s = exec i { s with inputs := rest, rspValid := false } := by
  have hhead : s.headInput = commandInput i := headInput_of_inputs hi
  have hrst : s.headInput.rst = false := by rw [hhead]; rfl
  have hcmd : s.headInput.cmd = some (encode i) := by rw [hhead]; rfl
  have hquiet : s.headInput.outOfBand = false := by rw [hhead]; rfl
  rw [step_legal hrst hf hcmd (decode_encode i), consume_quiet hquiet, hi, List.tail_cons]

end Completion

/-- Settles O47: the completion leaves the block in IDLE, where it runs the next command; no error status
makes a difference to that. -/
theorem noErrorIsFatal : Obligations.NoErrorIsFatal := by
  intro s t h hc _
  have hf : t.fsm = .idle := step_idle_of_rspValid h hc
  exact ⟨hf, cmdReady_of_idle hf, fun _ _ hi => step_commandInput hf hi⟩

/-! ### The one way into FAULT (41_page_access.md R102; 60_exceptions.md R124) -/

section FaultEntry

variable {s t : State}

theorem not_fault_of_busLock (h : s.busLock = true) : s.fsm ≠ .fault := by
  rcases (busLock_iff s).mp h with hf | hf <;> simp [hf]

/-- A transfer stops the block only if it is over-length. -/
theorem onReadOk_fault {bytes : List Byte} (hf : (onReadOk bytes s).fsm = .fault) :
    s.n.toNat < bytes.length ∧ onReadOk bytes s = raiseFault s := by
  rcases onReadOk_cases bytes s with hover | ⟨-, -, h⟩ | ⟨-, -, -, h⟩ | ⟨-, -, -, h⟩
  · exact hover
  · simp [h] at hf
  · simp [h] at hf
  · exact absurd (h ▸ hf) (not_fault_of_busLock (stepIssue_busLock _))

theorem exec_not_fault {i : Instr} (hf : s.fsm = .idle) (h : exec i s = .next t) : t.fsm ≠ .fault := by
  rcases exec_cases (i := i) hf with ⟨v, h'⟩ | ⟨-, h'⟩ | ⟨off, cnt, -, -, -, h'⟩ | ⟨off, cnt, -, -, h'⟩
    | ⟨off, cnt, -, -, -, h'⟩ <;> rw [h] at h' <;> cases h'
  · simp
  · simp
  · simp
  · exact not_fault_of_busLock (stepIssue_busLock _)
  · exact not_fault_of_busLock (stepIssue_busLock _)

theorem onAnswer_pageSel_not_fault {inp : Input} {addr wdata : Byte} {ans : Answer}
    (h : onAnswer inp (.pageSel addr wdata) ans s = .next t) : t.fsm ≠ .fault := by
  rcases onAnswer_pageSel_cases h with ⟨e, d, rfl⟩ | ⟨d, rfl⟩
  · simp
  · simp [onSelectOk]

/-- An answer under the window law transfers at most the LEN bytes asked for, so while N is that LEN it
never stops the block. -/
theorem deliver_not_fault {addr len : Byte} {k : Nat} (hn : s.n = len) (h : deliver addr len k s = .next t) :
    t.fsm ≠ .fault := by
  subst hn
  intro hf
  rcases deliver_cases addr s.n k s with ⟨-, h'⟩ | ⟨-, -, h'⟩ | ⟨-, -, h'⟩ <;> rw [h] at h' <;> cases h'
  · have hover := (onReadOk_fault hf).1
    rw [freeBytes_length] at hover
    exact absurd hover (Nat.not_lt.mpr (Nat.min_le_right _ _))
  · have hover := (onReadOk_fault hf).1
    rw [windowBytes, Memory.slice_length] at hover
    exact absurd hover (Nat.not_lt.mpr (Nat.min_le_right _ _))

/-- Of the answers to a window read of N bytes only one with more than N bytes of the transport's own
stops the block. -/
theorem onAnswer_winRead_fault {inp : Input} {addr len : Byte} {ans : Answer} (hn : s.n = len)
    (h : onAnswer inp (.winRead addr len) ans s = .next t) (hf : t.fsm = .fault) :
    t.faultReason = .overlength ∧ ∃ bytes, ans = .okBytes bytes ∧ s.n.toNat < bytes.length := by
  cases ans with
  | err e => cases h; simp [onReadErr] at hf
  | ok k => exact absurd hf (deliver_not_fault hn h)
  | okBytes bytes =>
    cases h
    obtain ⟨hover, hraise⟩ := onReadOk_fault hf
    exact ⟨by rw [hraise, raiseFault_faultReason], bytes, rfl, hover⟩

/-- The window read outstanding in RD_WAIT asks for N bytes. -/
theorem Inv.outstanding_len (hi : Inv s) {addr len : Byte} (hf : s.fsm = .rdWait)
    (ho : s.outstanding = some (.winRead addr len)) : s.n = len := by
  obtain ⟨-, -, -, -, hbus⟩ := hi.rdWait hf
  have heq := hbus.symm.trans (outstanding_some ho).1
  rw [winReadRequest] at heq
  cases heq
  rfl

/-- What a step into FAULT was: the outstanding window read was answered with more than N bytes. -/
theorem step_enters_fault (hi : Inv s) (h : step s = .next t) (hs : s.fsm ≠ .fault) (ht : t.fsm = .fault) :
    s.fsm = .rdWait ∧ t.faultReason = .overlength
    ∧ ∃ bytes, answered s (.okBytes bytes) ∧ s.n.toNat < bytes.length := by
  rcases step_cases h with ⟨w, i, -, hf, -, -, he⟩ | ⟨w, e, -, -, -, -, ho⟩ | ⟨-, ho⟩
    | ⟨req, ans, hr, hreq, hresp, ha⟩ | ⟨-, -, -, ho⟩
  · exact absurd ht (exec_not_fault ((consume_fsm s).trans hf) he)
  · cases ho; simp at ht
  · cases ho; simp [onReset] at ht
  · obtain ⟨-, ⟨-, addr, wdata, rfl⟩ | ⟨hf, addr, len, rfl⟩⟩ := outstanding_some hreq
    · exact absurd ht (onAnswer_pageSel_not_fault ha)
    · have hn : s.consume.n = len := (consume_n s).trans (hi.outstanding_len hf hreq)
      obtain ⟨hreason, bytes, rfl, hover⟩ := onAnswer_winRead_fault hn ha ht
      exact ⟨hf, hreason, bytes, ⟨hr, hresp⟩, by simpa using hover⟩
  · cases ho; exact absurd ((consume_fsm s).symm.trans ht) hs

end FaultEntry

/-- Settles O38: the inversion of a step into FAULT, the step without effect in it, the outputs as
functions of FSM, and the reset step. -/
theorem faultIsStickyUntilReset : Obligations.FaultIsStickyUntilReset := by
  refine ⟨fun _ _ hi h hs ht => step_enters_fault hi h hs ht, fun s hf hr => ?sticky, fun s hf => ?outputs,
    fun s _ hr => ⟨_, step_reset hr, rfl, rfl⟩⟩
  case sticky => exact ⟨step_fault hr hf, (consume_fsm s).trans hf, consume_bus s, consume_rspValid s⟩
  case outputs => simp [State.cmdReady, State.busy, State.busLock, State.faulted, State.good, hf]

end Sys2Proof.Machine

/-! PROOFS of the command word: the encoder against the legal forms of a word, and the assembler
(30_encoding.md R61 to R70, R79). -/

namespace Sys2Proof

/-- Settles O1: the word of every command has that command's form, and the decoder reads the forms. -/
theorem decodeOfEncode : Obligations.DecodeOfEncode := decode_encode

/-! ### A word is made of its fields (R61, R63, R65) -/

theorem word_toNat (w : Command) :
    w.toNat = (opField w).toNat * 2 ^ 60 + (rsvdField w).toNat * 2 ^ 32 + (argField w).toNat := by
  have := w.isLt
  rw [opField_toNat, rsvdField_toNat, argField_toNat]
  omega

theorem argField_toNat_eq_raw (w : Command) :
    (argField w).toNat = (argAbove15 w).toNat * 2 ^ 16 + (rawField w).toNat := by
  rw [argField_toNat, argAbove15_toNat, rawField_toNat]
  omega

theorem argField_toNat_eq_read (w : Command) :
    (argField w).toNat = (argAbove20 w).toNat * 2 ^ 21 + (countField w).toNat * 2 ^ 10 + (offsetField w).toNat := by
  rw [argField_toNat, argAbove20_toNat, countField_toNat, offsetField_toNat]
  omega

/-- A word in a legal form holds nothing but the opcode and the operands of its command. -/
theorem encode_of_hasForm {w : Command} {i : Instr} (h : HasForm w i) : encode i = w := by
  apply BitVec.eq_of_toNat_eq
  rw [encode_toNat]
  cases h with
  | decode hr hop ha => rw [word_toNat w, argField_toNat_eq_raw, hr, hop, ha]; simp
  | encode hr hop => rw [word_toNat w, hr, hop]; simp
  | pageRead hr hop ha => rw [word_toNat w, argField_toNat_eq_read, hr, hop, ha]; simp [Nat.add_assoc]
  | bulkRead hr hop ha => rw [word_toNat w, argField_toNat_eq_read, hr, hop, ha]; simp [Nat.add_assoc]
  | invalidate hr hop ha => rw [word_toNat w, hr, hop, ha]; simp
  | getPage hr hop ha => rw [word_toNat w, hr, hop, ha]; simp

/-- Settles O2: a legal word has one of the six forms, and each form is the encoder's word. -/
theorem encodeOfDecode : Obligations.EncodeOfDecode := fun _ _ h => encode_of_hasForm (hasForm_of_decode h)

theorem illegalWord_of_decode_error {w : Command} {e : IllegalWord} (h : decode w = .error e) : illegalWord w := by
  rw [illegalWord_iff_forall_not_hasForm]
  intro i hi
  rw [decode_of_hasForm hi] at h
  cases h

/-! ### The assembler (R79) -/

theorem assemble_of_wellFormed {a : Asm} (h : a.wellFormed = true) : a.assemble = some a.toInstr := by
  rw [Asm.assemble, if_pos h]

theorem assemble_of_not_wellFormed {a : Asm} (h : a.wellFormed = false) : a.assemble = none := by
  rw [Asm.assemble, if_neg (by simp [h])]

/-- The number of the word a well-formed line assembles to is that of its command. -/
theorem assemble_map_toNat {a : Asm} {n : Nat} (h : a.wellFormed = true) (hn : (encode a.toInstr).toNat = n) :
    a.assemble.map (fun i => (encode i).toNat) = some n := by
  rw [assemble_of_wellFormed h, Option.map_some, hn]

theorem not_illegalWord_encode (i : Instr) : ¬ illegalWord (encode i) :=
  not_illegalWord_of_hasForm (hasForm_encode i)

/-- Settles O4: in its range an operand fills its field without loss, so the number of the encoder's word
is the table's sum; every word of the encoder has a legal form. -/
theorem assemblerMakesTheWordsOfTheTable : Obligations.AssemblerMakesTheWordsOfTheTable := by
  refine ⟨fun raw h => ?decode, fun mdeg hlo hhi => ?encode, fun offset count ho hc => ⟨?page, ?bulk⟩,
    assemble_map_toNat rfl (encode_toNat _), assemble_map_toNat rfl (encode_toNat _),
    fun _ h => assemble_of_not_wellFormed h, fun _ i _ => not_illegalWord_encode i⟩
  case decode =>
    refine assemble_map_toNat (by simpa [Asm.wellFormed] using h) ?_
    simp only [Asm.toInstr, encode_toNat, BitVec.toNat_ofNat]
    omega
  case encode =>
    refine assemble_map_toNat (by simpa [Asm.wellFormed] using ⟨hlo, hhi⟩) ?_
    simp only [Asm.toInstr, encode_toNat, BitVec.toNat_ofInt]
    rfl
  all_goals
    refine assemble_map_toNat (by simpa [Asm.wellFormed] using ⟨ho, hc⟩) ?_
    simp only [Asm.toInstr, encode_toNat, BitVec.toNat_ofNat]
    omega

/-- Settles O5: each of the six words is evaluated by the decoder. -/
theorem wordsOfEachFamilyDecode : Obligations.WordsOfEachFamilyDecode := by
  unfold Obligations.WordsOfEachFamilyDecode
  decide

end Sys2Proof

/-! PROOFS of the single step: what is accepted, which event a step is, and the control commands
(30_encoding.md R74; 60_exceptions.md R126; 42_page_cache_control.md). -/

namespace Sys2Proof.Machine

open Host (Outcome)

/-- Settles O6: the step rule for an accepted legal word, and the quiet consumption of its input. -/
theorem stepRunsTheDecodedCommand : Obligations.StepRunsTheDecodedCommand := by
  rintro s w i ⟨hr, hf, hc⟩ hd -
  exact ⟨step_legal hr hf hc hd, consume_quiet⟩

/-! ### What a step sees of its input (60_exceptions.md R126) -/

section Ports

variable {s : State} {inp : Input} {rest : List Input}

theorem consume_of_inputs (h : s.inputs = inp :: rest) :
    s.consume = actOutOfBand inp { s with inputs := rest, rspValid := false } := by
  rw [State.consume, headInput_of_inputs h, h, List.tail_cons]

/-- The consumption of an input looks neither at its command nor at its answer. -/
theorem consume_setPorts (h : s.inputs = inp :: rest) (c : Option Command) (a : Option (Nat × Answer)) :
    ({ s with inputs := { inp with cmd := c, resp := a } :: rest } : State).consume = s.consume := by
  rw [consume_of_inputs h]
  rfl

theorem outstanding_none (h : s.busLock = false) : s.outstanding = none := by
  cases ho : s.outstanding with
  | none => rfl
  | some req =>
    rcases (outstanding_some ho).2 with ⟨hf, -⟩ | ⟨hf, -⟩ <;> simp [State.busLock, hf] at h

theorem answerFor_none (h : s.busLock = false) (inp : Input) : answerFor inp s = none := by
  rw [answerFor, outstanding_none h]

/-- With rst low and no answer heeded, the event of a step that accepts nothing is no event. -/
theorem onEvent_none (hr : inp.rst = false) (h : answerFor inp s = none) : onEvent inp s = .next s := by
  rw [onEvent, if_neg (by simp [hr])]
  simp only [h]

/-- Outside SEL_WAIT and RD_WAIT no answer is heeded. -/
theorem onEvent_setResp (h : s.busLock = false) (inp : Input)
    (a : Option (Nat × Answer)) :
    onEvent { inp with resp := a } s = onEvent inp s := by
  rcases Bool.eq_false_or_eq_true inp.rst with hr | hr
  · rw [onEvent, onEvent, if_pos hr, if_pos (by exact hr)]
    rfl
  · rw [onEvent_none hr (answerFor_none h _), onEvent_none (by exact hr) (answerFor_none h _)]

end Ports

/-- Settles O8: the three events in the order of R126, each followed on the consumed state, which is the
same whatever stands on the other ports. -/
theorem oneEventPerStep : Obligations.OneEventPerStep := by
  intro s inp rest hi
  have hhead : s.headInput = inp := headInput_of_inputs hi
  refine ⟨fun hr c a => ?reset, fun hsel hrd a => ?answer, fun hf c => ?command, fun hf _ => exec_busy hf⟩
  case reset =>
    rw [step_reset (hhead.symm ▸ hr), step_reset (by exact hr), consume_setPorts hi, hhead]
    rfl
  case answer =>
    have hlock : s.consume.busLock = false := by simp [State.busLock, hsel, hrd]
    have hconsume := consume_setPorts hi inp.cmd a
    have haccept : acceptedWord { inp with resp := a } s.consume = acceptedWord inp s.consume := rfl
    simp only [step, hconsume, hhead, headInput_cons, haccept, onEvent_setResp hlock]
  case command =>
    rw [step_event (.inr (.inl hf)), step_event (.inr (.inl (by exact hf))), consume_setPorts hi c inp.resp, hhead]
    rfl

/-- Settles O9: with no answer to the outstanding transaction there is no event. -/
theorem strayAnswersAreIgnored : Obligations.StrayAnswersAreIgnored := by
  intro s hr hc hstray
  refine ⟨?_, consume_quiet⟩
  have hnone : answerFor s.headInput s.consume = none := by
    refine Option.eq_none_iff_forall_ne_some.mpr fun ⟨req, ans⟩ h => ?_
    obtain ⟨ho, ha⟩ := answerFor_some.mp h
    have hlock : s.consume.busLock = true := by
      by_contra hfree
      simp [outstanding_none (Bool.not_eq_true _ ▸ hfree)] at ho
    exact hstray (by simpa using hlock) ans (by simpa using ha)
  have hno : s.headInput.rst = true ∨ s.fsm ≠ .idle ∨ s.headInput.cmd = none := by
    by_cases hf : s.fsm = .idle
    · exact .inr (.inr (hc hf))
    · exact .inr (.inl hf)
  rw [step_event hno, onEvent_none hr hnone]

/-! ### The control commands (42_page_cache_control.md R113, R114) -/

theorem exec_invalidate_idle {s : State} (hf : s.fsm = .idle) :
    exec .invalidate s = .next (complete .ok 0 [] 0 { s with cpValid := false }) := by
  rw [exec, execInvalidate, whenReady_idle _ hf, completeOk_eq]

/-- Settles O20: the command is one completion of the state with CP_VALID cleared. -/
theorem invalidateClearsTheCache : Obligations.InvalidateClearsTheCache := by
  intro s hf
  rw [exec_invalidate_idle hf, complete_of_idle (by exact hf), statusCode]

/-- The report as a number: 8 + CP_PAGE, or 0 while the page is not known. -/
theorem pageReport_eq (cpValid : Bool) (cpPage : BitVec 3) :
    pageReport cpValid cpPage = if cpValid then BitVec.ofNat 32 (8 + cpPage.toNat) else 0 := by
  revert cpValid cpPage
  decide

/-- Settles O21: the command is one completion with the report. -/
theorem getPageReportsTheCache : Obligations.GetPageReportsTheCache := by
  intro s hf
  rw [exec, execGetPage, whenReady_idle _ hf, completeOk_eq, complete_of_idle hf, statusCode, pageReport_eq]

theorem exec_pageRead_pos {s : State} {off : BitVec 10} {cnt : BitVec 11} (hf : s.fsm = .idle) (h0 : cnt ≠ 0) :
    exec (.pageRead off cnt) s = .next (startRead .page off cnt s) := by
  rw [exec, execPageRead, whenReady_idle _ hf, if_neg h0]

/-- Settles O27: the command starts a read, whose first step is the one written out in arithmetic. -/
theorem pageReadIssuesItsFirstTransaction : Obligations.PageReadIssuesItsFirstTransaction := by
  intro s off cnt hf h0
  rw [exec_pageRead_pos hf h0, startRead_eq_firstReadStep]

end Sys2Proof.Machine

/-! PROOFS of the codec: the register value and its field, and the two round trips
(40_codec.md R82, R87 to R91). -/

namespace Sys2Proof.Machine

/-! ### Which bits of RAW matter (40_codec.md R82) -/

/-- RAW with every bit outside [12:2] cleared is the field put back in its place. -/
theorem and_mask_eq_shiftedField (raw : BitVec 16) :
    raw &&& (0x1FFC : BitVec 16) = (raw.extractLsb' 2 11).setWidth 16 <<< 2 := by
  have hmask : (0x1FFC : BitVec 16) = (BitVec.allOnes 11).setWidth 16 <<< 2 := by decide
  apply BitVec.eq_of_getLsbD_eq
  intro i hi
  rw [BitVec.getLsbD_and, hmask, BitVec.getLsbD_shiftLeft, BitVec.getLsbD_shiftLeft, BitVec.getLsbD_setWidth,
    BitVec.getLsbD_setWidth, BitVec.getLsbD_allOnes, BitVec.getLsbD_extractLsb']
  by_cases h2 : i < 2
  · simp [h2]
  · have hback : 2 + (i - 2) = i := by omega
    simp [h2, hback, hi, show i - 2 < 16 by omega, Bool.and_comm]

theorem extract_and_mask (raw : BitVec 16) :
    (raw &&& (0x1FFC : BitVec 16)).extractLsb' 2 11 = raw.extractLsb' 2 11 := by
  rw [and_mask_eq_shiftedField, extract_shiftedField]

/-- The sign bits an arithmetic shift brings in stand above the field. -/
theorem extract_sshiftRight (raw : BitVec 16) : (raw.sshiftRight 2).extractLsb' 0 11 = raw.extractLsb' 2 11 := by
  apply BitVec.eq_of_getLsbD_eq
  intro i hi
  have h16 : ¬ 16 ≤ i := by omega
  have hin : 2 + i < 16 := by omega
  rw [BitVec.getLsbD_extractLsb', BitVec.getLsbD_extractLsb', BitVec.getLsbD_sshiftRight, Nat.zero_add]
  simp [h16, hin]

theorem extract_ushiftRight (raw : BitVec 16) : (raw >>> 2).extractLsb' 0 11 = raw.extractLsb' 2 11 := by
  ext i hi
  simp

/-- Settles O12: mask and shifts all leave the field RAW[12:2], the only thing `tdecode` reads. -/
theorem tdecodeIgnoresUnusedBits : Obligations.TdecodeIgnoresUnusedBits := by
  intro raw
  have hs := extract_sshiftRight raw
  have hu := extract_ushiftRight raw
  refine ⟨?mask, hs, hu, ?arithmetic, ?logical⟩
  case mask => rw [tdecode, tdecode, extract_and_mask]
  case arithmetic => rw [BitVec.setWidth_eq_extractLsb' (by decide), hs]; rfl
  case logical => rw [BitVec.setWidth_eq_extractLsb' (by decide), hu]; rfl

/-! ### The image of `tdecode` and the way back (R87, R88) -/

/-- Settles O13: a signed field of 11 bits is any integer from -1024 to 1023, and only these. -/
theorem tdecodeRange : Obligations.TdecodeRange := by
  refine ⟨fun raw => ⟨(raw.extractLsb' 2 11).toInt, rfl, BitVec.le_toInt _, ?_, rfl⟩, fun k hlo hhi => ?_⟩
  · exact Int.le_of_lt_add_one (BitVec.toInt_lt (x := raw.extractLsb' 2 11))
  · refine ⟨(BitVec.ofInt 11 k).setWidth 16 <<< 2, ?_⟩
    rw [tdecode, extract_shiftedField, BitVec.toInt_ofInt_eq_self (by decide) hlo (Int.lt_add_one_of_le hhi)]
    rfl

theorem clamp_of_mem {m lo hi : Int} (hlo : lo ≤ m) (hhi : m ≤ hi) : clamp m lo hi = m := by
  rw [clamp, max_eq_left hlo, min_eq_left hhi]

/-- A whole count of units in range is encoded as that count. -/
theorem tencode_mul_unit {k : Int} (hlo : -1024 ≤ k) (hhi : k ≤ 1023) :
    tencode (tempUnit * k) = (BitVec.ofInt 11 k).setWidth 16 <<< 2 := by
  have hclamp : clamp (tempUnit * k) tempMin tempMax = tempUnit * k :=
    clamp_of_mem (by rw [tempUnit, tempMin]; omega) (by rw [tempUnit, tempMax]; omega)
  rw [tencode, hclamp, Int.mul_tdiv_cancel_left _ (by decide)]

theorem tencode_tdecode (raw : BitVec 16) : tencode (tdecode raw) = raw &&& (0x1FFC : BitVec 16) := by
  have hhi : (raw.extractLsb' 2 11).toInt ≤ 1023 := Int.le_of_lt_add_one BitVec.toInt_lt
  rw [tdecode, tencode_mul_unit (BitVec.le_toInt _) hhi, BitVec.ofInt_toInt, and_mask_eq_shiftedField]

/-- Settles O14: the decoded value is a whole count in range, so encoding gives its field back. -/
theorem registerRoundTrip : Obligations.RegisterRoundTrip := by
  intro raw
  rw [tencode_tdecode]
  exact ⟨rfl, extract_and_mask raw⟩

/-! ### Encoding and decoding again (R89 to R91) -/

/-- Settles O15: the values that come back are 250 times a count in range, and on those neither the clamp
nor the division loses anything. -/
theorem millidegreeRoundTrip : Obligations.MillidegreeRoundTrip := by
  intro m
  have hround : tdecode (tencode m) = 250 * (clamp m (-256000) 255750).tdiv 250 := tdecode_tencode m
  refine ⟨hround, fun h => ?exact, ?back⟩
  case exact =>
    obtain ⟨hlo, hhi⟩ : -1024 ≤ (clamp m (-256000) 255750).tdiv 250 ∧ (clamp m (-256000) 255750).tdiv 250 ≤ 1023 :=
      clampedCount_bounds m
    rw [hround] at h
    exact ⟨by omega, by omega, _, h.symm⟩
  case back =>
    rintro ⟨hlo, hhi, k, rfl⟩
    rw [hround, clamp_of_mem hlo hhi, Int.mul_tdiv_cancel_left _ (by decide)]

/-- An encoding is its own field in place, so the mask leaves it as it is. -/
theorem tencode_and_mask (m : Int) : tencode m &&& (0x1FFC : BitVec 16) = tencode m := by
  rw [and_mask_eq_shiftedField, tencode, extract_shiftedField]

/-- Settles O17: bits [15:13] and [1:0] are those the mask of the field clears. -/
theorem tencodeShape : Obligations.TencodeShape := by
  refine fun m => ⟨?_, _, rfl⟩
  have hdisjoint : (0x1FFC : BitVec 16) &&& 0xE003 = 0 := by decide
  rw [← tencode_and_mask, BitVec.and_assoc, hdisjoint]
  exact BitVec.and_zero

theorem clamp_mono {m m' : Int} (h : m ≤ m') (lo hi : Int) : clamp m lo hi ≤ clamp m' lo hi :=
  min_le_min_right hi (max_le_max_right lo h)

/-- Settles O18: clamp, truncating division and multiplication by 250 all keep the order; outside the
range the clamp is constant. -/
theorem codecIsMonotone : Obligations.CodecIsMonotone := by
  refine ⟨fun m m' h => ?mono, fun m h => ?below, fun m h => ?above⟩
  case mono =>
    rw [tdecode_tencode, tdecode_tencode]
    exact Int.mul_le_mul_of_nonneg_left (Int.tdiv_le_tdiv (by decide) (clamp_mono h _ _)) (by decide)
  case below =>
    have hclamp : clamp m tempMin tempMax = -256000 := by rw [clamp, tempMin, max_eq_right h]; rfl
    rw [tdecode_tencode, hclamp]
    rfl
  case above =>
    have hclamp : clamp m tempMin tempMax = 255750 := min_eq_right (h.trans (le_max_left _ _))
    rw [tdecode_tencode, hclamp]
    rfl

end Sys2Proof.Machine

/-! PROOFS of the invariant: the sequencer, the events of a step, and what each event keeps
(41_page_access.md sections 1 to 3; 30_encoding.md sections 4 to 6). -/

namespace Sys2Proof.Machine

open Host (Outcome)

/-! ### The sequencer of a read command -/

/-- The clauses of `Inv` about the sequencer. They alone decide what the answers of the transport lead to,
and an accepted read command makes them hold whatever the state before it. -/
structure Sequenced (s : State) : Prop where
  selWait : s.fsm = .selWait → s.pg = pageOf s.off ∧ s.cpNames s.pg = false ∧ 1 ≤ s.rem.toNat
    ∧ s.bus.head? = some (pageSelRequest s.cfg s.pg)
  rdWait : s.fsm = .rdWait → s.pg = pageOf s.off ∧ s.cpNames s.pg = true ∧ 1 ≤ s.rem.toNat
    ∧ s.n = clampLen s.off s.rem ∧ s.bus.head? = some (winReadRequest s.cfg s.off s.n)
  bulk : s.busLock = true → s.mode = .bulk →
    s.off.toNat + s.rem.toNat ≤ 1024 ∧ s.acc.length ≤ s.off.toNat
  page : s.busLock = true → s.mode = .page → s.acc = []

/-- The sequencer holds a step that still wants bytes: what StepIssue starts from. -/
structure StepWanted (s : State) : Prop where
  wanted : 1 ≤ s.rem.toNat
  bulk : s.mode = .bulk → s.off.toNat + s.rem.toNat ≤ 1024 ∧ s.acc.length ≤ s.off.toNat
  page : s.mode = .page → s.acc = []

section Sequencer

variable {s t : State}

theorem Inv.sequenced (hi : Inv s) : Sequenced s where
  selWait := hi.selWait
  rdWait := hi.rdWait
  bulk := hi.bulk
  page := hi.page

theorem Sequenced.of_not_busLock (h : s.busLock = false) : Sequenced s := by
  have hsel : s.fsm ≠ .selWait := fun hf => by simp [State.busLock, hf] at h
  have hrd : s.fsm ≠ .rdWait := fun hf => by simp [State.busLock, hf] at h
  exact ⟨fun hf => absurd hf hsel, fun hf => absurd hf hrd, fun hb => by simp [h] at hb, fun hb => by simp [h] at hb⟩

theorem Sequenced.consume (hs : Sequenced s) : Sequenced s.consume where
  selWait := by simpa using hs.selWait
  rdWait := by simpa using hs.rdWait
  bulk := by simpa using hs.bulk
  page := by simpa [← List.length_eq_zero_iff] using hs.page

theorem Sequenced.stepWanted (hs : Sequenced s) (hb : s.busLock = true) : StepWanted s where
  wanted := by
    rcases (busLock_iff s).mp hb with hf | hf
    · exact (hs.selWait hf).2.2.1
    · exact (hs.rdWait hf).2.2.1
  bulk := hs.bulk hb
  page := hs.page hb

theorem busLock_of_selWait (hf : s.fsm = .selWait) : s.busLock = true := (busLock_iff s).mpr (.inl hf)
theorem busLock_of_rdWait (hf : s.fsm = .rdWait) : s.busLock = true := (busLock_iff s).mpr (.inr hf)

theorem count_pos {cnt : BitVec 11} (h0 : cnt ≠ 0) : 1 ≤ cnt.toNat :=
  Nat.pos_of_ne_zero fun hz => h0 (BitVec.eq_of_toNat_eq hz)

theorem StepWanted.sequenced_issueWinRead (hw : StepWanted s) (hpg : s.pg = pageOf s.off) (hn : s.cpNames s.pg = true) :
    Sequenced (issueWinRead s) where
  selWait hf := by cases hf
  rdWait _ := ⟨hpg, hn, hw.wanted, rfl, rfl⟩
  bulk _ := hw.bulk
  page _ := hw.page

theorem StepWanted.sequenced_issuePageSel (hw : StepWanted s) (hpg : s.pg = pageOf s.off)
    (hn : s.cpNames s.pg = false) :
    Sequenced (issuePageSel s) where
  selWait _ := ⟨hpg, hn, hw.wanted, rfl⟩
  rdWait hf := by cases hf
  bulk _ := hw.bulk
  page _ := hw.page

theorem StepWanted.sequenced_stepIssue (hw : StepWanted s) : Sequenced (stepIssue s) := by
  have hw' : StepWanted { s with pg := pageOf s.off } := { hw with }
  rcases stepIssue_cases s with ⟨hn, h⟩ | ⟨hn, h⟩ <;> rw [h]
  · exact hw'.sequenced_issueWinRead rfl hn
  · exact hw'.sequenced_issuePageSel rfl hn

/-- The select that succeeded was that of the step's page, which the cache now names. -/
theorem Sequenced.keep_onSelectOk (hs : Sequenced s) (hf : s.fsm = .selWait) (d : BitVec 3) :
    Sequenced (onSelectOk { s with devPage := d }) := by
  have hw := hs.stepWanted (busLock_of_selWait hf)
  obtain ⟨hpg, -, -, -⟩ := hs.selWait hf
  have hw' : StepWanted { s with devPage := d, cpValid := true, cpPage := s.pg } := { hw with }
  exact hw'.sequenced_issueWinRead hpg (by simp [State.cpNames])

/-- A read that wants more bytes than it got in one piece goes on behind them, within L. -/
theorem StepWanted.advance (hw : StepWanted s) (hm : s.mode = .bulk) {bytes : List Byte}
    (hlt : bytes.length < s.rem.toNat) :
    (s.off + BitVec.ofNat 10 bytes.length).toNat = s.off.toNat + bytes.length
    ∧ (BitVec.ofNat 11 (s.rem.toNat - bytes.length)).toNat = s.rem.toNat - bytes.length
    ∧ StepWanted { s with acc := s.acc ++ bytes, off := s.off + BitVec.ofNat 10 bytes.length,
                          rem := BitVec.ofNat 11 (s.rem.toNat - bytes.length) } := by
  obtain ⟨hend, hacc⟩ := hw.bulk hm
  have hrem := s.rem.isLt
  have hoff : (s.off + BitVec.ofNat 10 bytes.length).toNat = s.off.toNat + bytes.length := by
    rw [BitVec.toNat_add, BitVec.toNat_ofNat]
    omega
  have hleft : (BitVec.ofNat 11 (s.rem.toNat - bytes.length)).toNat = s.rem.toNat - bytes.length := by
    rw [BitVec.toNat_ofNat]
    omega
  refine ⟨hoff, hleft, ?_, fun _ => ⟨?_, ?_⟩, fun hp => ?_⟩
  · simp only [hleft]; omega
  · simp only [hoff, hleft]; omega
  · simp only [List.length_append, hoff]; omega
  · simp [hm] at hp

theorem Sequenced.keep_onReadOk (hs : Sequenced s) (hf : s.fsm = .rdWait) (bytes : List Byte) (d : Nat) :
    Sequenced (onReadOk bytes { s with draws := d }) := by
  have hw := hs.stepWanted (busLock_of_rdWait hf)
  have hw' : StepWanted { s with draws := d } := { hw with }
  rcases onReadOk_cases bytes { s with draws := d } with ⟨-, h⟩ | ⟨-, -, h⟩ | ⟨-, -, -, h⟩ | ⟨-, hm, hlt, h⟩ <;> rw [h]
  · exact .of_not_busLock rfl
  · exact .of_not_busLock rfl
  · exact .of_not_busLock rfl
  · exact (hw'.advance hm hlt).2.2.sequenced_stepIssue

end Sequencer

/-! ### The steps of a waiting block, one for each answer (41_page_access.md R97 to R103) -/

section Answers

variable {s : State}

theorem onAnswer_pageSel_ok {inp : Input} {ans : Answer} (hok : ∀ e, ans ≠ .err e) (s : State) (p : BitVec 3) :
    onAnswer inp (pageSelRequest s.cfg p) ans s
      = .next (onSelectOk { s with devPage := if s.interleaved then inp.pageDraw else p }) := by
  cases ans with
  | err e => exact absurd rfl (hok e)
  | ok k | okBytes bs => simp [onAnswer, pageSelRequest, pageAfterSelect]

theorem Sequenced.step_select (hs : Sequenced s) (hf : s.fsm = .selWait) {ans : Answer} (ha : answered s ans) :
    step s = onAnswer s.headInput (pageSelRequest s.cfg s.pg) ans s.consume := by
  obtain ⟨-, -, -, hbus⟩ := hs.selWait hf
  exact step_answer ha.1 (outstanding_selWait hf hbus) ha.2

theorem Sequenced.step_select_err (hs : Sequenced s) (hf : s.fsm = .selWait) {e : Byte} (ha : answered s (.err e)) :
    step s = .next (completeTransportError e { s.consume with devPage := s.headInput.pageDraw }) :=
  hs.step_select hf ha

theorem Sequenced.step_select_ok (hs : Sequenced s) (hf : s.fsm = .selWait) {ans : Answer} (ha : answered s ans)
    (hok : ∀ e, ans ≠ .err e) : step s = .next (onSelectOk
      { s.consume with devPage := if s.consume.interleaved then s.headInput.pageDraw else s.pg }) := by
  rw [hs.step_select hf ha, ← consume_cfg, onAnswer_pageSel_ok hok]

theorem Sequenced.step_read (hs : Sequenced s) (hf : s.fsm = .rdWait) {ans : Answer} (ha : answered s ans) :
    step s = onAnswer s.headInput (winReadRequest s.cfg s.off s.n) ans s.consume := by
  obtain ⟨-, -, -, -, hbus⟩ := hs.rdWait hf
  exact step_answer ha.1 (outstanding_rdWait hf hbus) ha.2

theorem Sequenced.step_read_err (hs : Sequenced s) (hf : s.fsm = .rdWait) {e : Byte} (ha : answered s (.err e)) :
    step s = .next (completeTransportError e s.consume) :=
  hs.step_read hf ha

theorem Sequenced.step_read_okBytes (hs : Sequenced s) (hf : s.fsm = .rdWait) {bytes : List Byte}
    (ha : answered s (.okBytes bytes)) : step s = .next (onReadOk bytes s.consume) :=
  hs.step_read hf ha

/-- The window read in progress is one of registers of the window. -/
theorem Sequenced.request_inWindow (hs : Sequenced s) (hf : s.fsm = .rdWait) :
    inWindow s.cfg (winAddr s.cfg s.off) s.n = true := by
  obtain ⟨-, -, -, hn, -⟩ := hs.rdWait hf
  rw [hn]
  exact inWindow_winAddr _ _ (clampLen_in_page _ _)

/-- Answered by the window law, the read transfers the bytes the window shows. -/
theorem Sequenced.step_read_window (hs : Sequenced s) (hf : s.fsm = .rdWait) {k : Nat} (ha : answered s (.ok k))
    (hint : s.consume.interleaved = false) :
    step s = .next (onReadOk (windowBytes (winAddr s.cfg s.off) (min k s.n.toNat) s.consume) s.consume) := by
  rw [hs.step_read hf ha]
  simp [onAnswer, winReadRequest, deliver, hint, hs.request_inWindow hf]

/-- While another master interleaves, it transfers as many free bytes. -/
theorem Sequenced.step_read_free (hs : Sequenced s) (hf : s.fsm = .rdWait) {k : Nat} (ha : answered s (.ok k))
    (hint : s.consume.interleaved = true) :
    step s = .next (onReadOk (freeBytes s.consume.draws (min k s.n.toNat))
      { s.consume with draws := s.consume.draws + min k s.n.toNat }) := by
  rw [hs.step_read hf ha]
  simp [onAnswer, winReadRequest, deliver, hint]

/-- A success answer, in either form, transfers some bytes; those of the window if the device answers and no
other master interleaves. -/
theorem Sequenced.step_read_ok (hs : Sequenced s) (hf : s.fsm = .rdWait) {ans : Answer} (ha : answered s ans)
    (hok : ∀ e, ans ≠ .err e) : ∃ bytes d, transferred s ans = some bytes.length
      ∧ (∀ k, ans = .ok k → s.consume.interleaved = false →
          bytes = windowBytes (winAddr s.cfg s.off) (min k s.n.toNat) s.consume)
      ∧ step s = .next (onReadOk bytes { s.consume with draws := d }) := by
  cases ans with
  | err e => exact absurd rfl (hok e)
  | okBytes bs => exact ⟨bs, s.consume.draws, rfl, by simp, hs.step_read_okBytes hf ha⟩
  | ok k =>
    cases hint : s.consume.interleaved with
    | false =>
      refine ⟨_, s.consume.draws, by simp [transferred, windowBytes], ?_, hs.step_read_window hf ha hint⟩
      rintro _ ⟨⟩ -
      rfl
    | true => exact ⟨_, _, by simp [transferred], by simp, hs.step_read_free hf ha hint⟩

end Answers

/-! ### The events of a step (60_exceptions.md R126) -/

/-- What happens in a step from `s` to `t` while the sequencer is consistent, with the state each event
leads to. -/
inductive Event (s t : State) : Prop where
  | reset : s.headInput.rst = true → t = onReset s.headInput s.consume → Event s t
  | command (i : Instr) : accepts s (encode i) → exec i s.consume = .next t → Event s t
  | illegal (w : Command) : accepts s w → illegalWord w → t = completeIllegal s.consume → Event s t
  | failed (e : Byte) (d : BitVec 3) : s.busLock = true → answered s (.err e) →
      t = completeTransportError e { s.consume with devPage := d } → Event s t
  | selected (ans : Answer) (d : BitVec 3) : s.fsm = .selWait → answered s ans → (∀ e, ans ≠ .err e) →
      (s.consume.interleaved = false → d = s.pg) → t = onSelectOk { s.consume with devPage := d } → Event s t
  | read (ans : Answer) (bytes : List Byte) (d : Nat) : s.fsm = .rdWait → answered s ans →
      transferred s ans = some bytes.length → (∀ k, ans = .ok k → s.consume.interleaved = false →
        bytes = windowBytes (winAddr s.cfg s.off) (min k s.n.toNat) s.consume) →
      t = onReadOk bytes { s.consume with draws := d } → Event s t
  | quiet : s.headInput.rst = false → (s.fsm = .idle → s.headInput.cmd = none) →
      (s.busLock = true → ∀ ans, ¬ answered s ans) → t = s.consume → Event s t

section Events

variable {s t : State}

theorem exec_total (i : Instr) (hf : s.fsm = .idle) : ∃ t, exec i s = .next t := by
  rcases exec_cases (i := i) hf with ⟨v, h⟩ | ⟨-, h⟩ | ⟨off, cnt, -, -, -, h⟩ | ⟨off, cnt, -, -, h⟩
    | ⟨off, cnt, -, -, -, h⟩ <;> exact ⟨_, h⟩

/-- An answer with the number of the newest request is heeded while the block waits. -/
theorem Sequenced.answerFor_ne_none (hs : Sequenced s) (hb : s.busLock = true) {ans : Answer} (ha : answered s ans) :
    answerFor s.headInput s.consume ≠ none := by
  have heeded {req : BusRequest} (ho : s.outstanding = some req) : answerFor s.headInput s.consume ≠ none := by
    have h : answerFor s.headInput s.consume = some (req, ans) :=
      answerFor_some.mpr ⟨by simpa using ho, by simpa using ha.2⟩
    simp [h]
  rcases (busLock_iff s).mp hb with hf | hf
  · obtain ⟨-, -, -, hbus⟩ := hs.selWait hf
    exact heeded (outstanding_selWait hf hbus)
  · obtain ⟨-, -, -, -, hbus⟩ := hs.rdWait hf
    exact heeded (outstanding_rdWait hf hbus)

/-- While the block waits, an answer to its newest request makes the step one of three events. -/
theorem Sequenced.answer_event (hs : Sequenced s) (hb : s.busLock = true) {ans : Answer} (ha : answered s ans) :
    ∃ t, step s = .next t ∧ Event s t := by
  by_cases herr : ∃ e, ans = .err e
  · obtain ⟨e, rfl⟩ := herr
    rcases (busLock_iff s).mp hb with hf | hf
    · exact ⟨_, hs.step_select_err hf ha, .failed e _ hb ha rfl⟩
    · exact ⟨_, hs.step_read_err hf ha, .failed e s.consume.devPage hb ha rfl⟩
  · have hok : ∀ e, ans ≠ .err e := fun e he => herr ⟨e, he⟩
    rcases (busLock_iff s).mp hb with hf | hf
    · exact ⟨_, hs.step_select_ok hf ha hok, .selected ans _ hf ha hok (fun hint => by simp [hint]) rfl⟩
    · obtain ⟨bytes, d, hlen, hwindow, hstep⟩ := hs.step_read_ok hf ha hok
      exact ⟨_, hstep, .read ans bytes d hf ha hlen hwindow rfl⟩

/-- From a consistent sequencer every step answers a next state, by one of the events. -/
theorem Sequenced.step_event (hs : Sequenced s) : ∃ t, step s = .next t ∧ Event s t := by
  rcases step_cases (s := s) rfl with ⟨w, i, hr, hf, hc, hd, he⟩ | ⟨w, e, hr, hf, hc, hd, ho⟩ | ⟨hr, ho⟩
    | ⟨req, ans, hr, hreq, hresp, -⟩ | ⟨hr, hno, hnone, ho⟩
  · obtain ⟨t, ht⟩ := exec_total i ((consume_fsm s).trans hf)
    have hw : w = encode i := (encodeOfDecode w i hd).symm
    exact ⟨t, he.symm.trans ht, .command i ⟨hr, hf, hw ▸ hc⟩ ht⟩
  · exact ⟨_, ho, .illegal w ⟨hr, hf, hc⟩ (illegalWord_of_decode_error hd) rfl⟩
  · exact ⟨_, ho, .reset hr rfl⟩
  · have hb : s.busLock = true := by
      rcases (outstanding_some hreq).2 with ⟨hf, -⟩ | ⟨hf, -⟩
      · exact busLock_of_selWait hf
      · exact busLock_of_rdWait hf
    exact hs.answer_event hb ⟨hr, hresp⟩
  · refine ⟨_, ho, .quiet hr (fun hf => hno.resolve_left (absurd hf)) (fun hb ans ha => ?_) rfl⟩
    exact hs.answerFor_ne_none hb ha hnone

theorem Sequenced.event (hs : Sequenced s) (h : step s = .next t) : Event s t := by
  obtain ⟨u, hu, he⟩ := hs.step_event
  rw [h] at hu
  cases hu
  exact he

end Events

/-! ### What every event keeps -/

/-- The clauses of `Inv` that do not look at FSM: L, the response registers, the length of ACC and the
requests on the bus. -/
structure Stored (s : State) : Prop where
  memWf : Memory.wf s.mem = true
  status : s.rspStatus.toNat ≤ 3
  errorEmpty : s.rspStatus ≠ statusCode .ok → s.rspValue = 0 ∧ s.rspData = []
  terr : s.rspStatus ≠ statusCode .errTransport → s.rspTerr = 0
  dataLength : s.rspData.length ≤ 1024
  accLength : s.acc.length ≤ 1024
  requests : ∀ r ∈ s.bus, legalRequest s.cfg r

/-- FAULT_REASON names a cause exactly in FAULT (10_state.md R27). -/
def FaultNamed (s : State) : Prop := s.fsm = .fault ↔ s.faultReason = .overlength

section Invariant

variable {s t : State}

theorem Inv.stored (hi : Inv s) : Stored s where
  memWf := hi.memWf
  status := hi.status
  errorEmpty := hi.errorEmpty
  terr := hi.terr
  dataLength := hi.dataLength
  accLength := hi.accLength
  requests := hi.requests

theorem inv_of_parts (hm : Stored s) (hs : Sequenced s) (hn : FaultNamed s) (hv : s.rspValid = true → s.fsm = .idle) :
    Inv s where
  memWf := hm.memWf
  status := hm.status
  errorEmpty := hm.errorEmpty
  terr := hm.terr
  dataLength := hm.dataLength
  accLength := hm.accLength
  faultReason := hn
  rspValid := hv
  requests := hm.requests
  selWait := hs.selWait
  rdWait := hs.rdWait
  bulk := hs.bulk
  page := hs.page

/-! The stored part. -/

theorem Stored.consume (h : Stored s) : Stored s.consume where
  memWf := by simpa using h.memWf
  status := by simpa using h.status
  errorEmpty := by simpa using h.errorEmpty
  terr := by simpa using h.terr
  dataLength := by simpa using h.dataLength
  accLength := by simpa using h.accLength
  requests := by simpa using h.requests

theorem Stored.keep_completeOk (h : Stored s) (v : BitVec 32) {data : List Byte} (hd : data.length ≤ 1024) :
    Stored (complete .ok v data 0 s) :=
  { h with status := Nat.zero_le _, errorEmpty := fun hne => absurd rfl hne, terr := fun _ => rfl, dataLength := hd }

theorem Stored.keep_completeError (h : Stored s) {st : Status} {e : Byte} (he : st ≠ .errTransport → e = 0) :
    Stored (complete st 0 [] e s) :=
  { h with
    status := by cases st <;> simp [statusCode]
    errorEmpty := fun _ => ⟨rfl, rfl⟩
    terr := fun hne => he fun heq => hne (by rw [heq, complete_rspStatus])
    dataLength := Nat.zero_le _ }

theorem Stored.setAcc (h : Stored s) {acc : List Byte} (ha : acc.length ≤ 1024) : Stored { s with acc := acc } :=
  { h with accLength := ha }

theorem Stored.setDevPage (h : Stored s) (d : BitVec 3) : Stored { s with devPage := d } := { h with }

theorem Stored.keep_transportError (h : Stored s) (e : Byte) : Stored (completeTransportError e s) :=
  (h.setAcc (Nat.zero_le _)).keep_completeError fun hne => absurd rfl hne

/-- One more legal request on the bus. -/
theorem Stored.requests_cons (h : Stored s) {r : BusRequest} (hr : legalRequest s.cfg r) :
    ∀ r' ∈ r :: s.bus, legalRequest s.cfg r' := by
  simpa using ⟨hr, h.requests⟩

theorem Stored.keep_issueWinRead (h : Stored s) (hrem : 1 ≤ s.rem.toNat) : Stored (issueWinRead s) :=
  { h with requests := h.requests_cons (legal_winRead _ _ hrem) }

theorem Stored.keep_stepIssue (h : Stored s) (hrem : 1 ≤ s.rem.toNat) : Stored (stepIssue s) := by
  rcases stepIssue_cases s with ⟨-, hi⟩ | ⟨-, hi⟩ <;> rw [hi]
  · exact Stored.keep_issueWinRead { h with } hrem
  · exact { h with requests := h.requests_cons (legal_pageSel _ _) }

theorem Stored.keep_startRead (h : Stored s) {cnt : BitVec 11} (h0 : cnt ≠ 0) (m : Mode) (off : BitVec 10) :
    Stored (startRead m off cnt s) := by
  exact Stored.keep_stepIssue { h with accLength := Nat.zero_le _ } (count_pos h0)

theorem Stored.keep_exec (h : Stored s) {i : Instr} (hf : s.fsm = .idle) (he : exec i s = .next t) : Stored t := by
  rcases exec_cases (i := i) hf with ⟨v, h'⟩ | ⟨-, h'⟩ | ⟨off, cnt, -, -, -, h'⟩ | ⟨off, cnt, -, h0, h'⟩
    | ⟨off, cnt, -, h0, -, h'⟩ <;> rw [he] at h' <;> cases h'
  · exact h.keep_completeOk v (Nat.zero_le _)
  · exact Stored.keep_completeOk (s := { s with cpValid := false }) { h with } 0 (Nat.zero_le _)
  · exact h.keep_completeError fun _ => rfl
  · exact h.keep_startRead h0 _ _
  · exact h.keep_startRead h0 _ _

/-- The bytes of a window read fit behind those in ACC: in its page for a PAGE_READ, in L for a BULK_READ. -/
theorem Sequenced.acc_append_length (hs : Sequenced s) (hf : s.fsm = .rdWait) {bytes : List Byte}
    (hle : bytes.length ≤ s.n.toNat) : (s.acc ++ bytes).length ≤ 1024 := by
  obtain ⟨-, -, -, hn, -⟩ := hs.rdWait hf
  have hpage := clampLen_le_page s.off s.rem
  have hrem := clampLen_le_rem s.off s.rem
  have hb := busLock_of_rdWait hf
  rw [hn] at hle
  rw [List.length_append]
  cases hm : s.mode with
  | page => rw [hs.page hb hm, List.length_nil]; omega
  | bulk =>
    obtain ⟨hend, hacc⟩ := hs.bulk hb hm
    omega

theorem Stored.keep_onReadOk (h : Stored s) (hs : Sequenced s) (hf : s.fsm = .rdWait) (bytes : List Byte) (d : Nat) :
    Stored (onReadOk bytes { s with draws := d }) := by
  have hacc := hs.acc_append_length hf (bytes := bytes)
  rcases onReadOk_cases bytes { s with draws := d } with ⟨-, ho⟩ | ⟨hle, -, ho⟩ | ⟨hle, -, -, ho⟩
    | ⟨hle, hm, hlt, ho⟩ <;> rw [ho]
  · exact { h with }
  · have hbytes : bytes.length ≤ 1024 := by
      have := hacc hle
      rw [List.length_append] at this
      omega
    exact Stored.keep_completeOk (Stored.setAcc (s := { s with draws := d }) { h with } (hacc hle)) _ hbytes
  · exact Stored.keep_completeOk (Stored.setAcc (s := { s with draws := d }) { h with } (hacc hle)) _ (hacc hle)
  · have hw : StepWanted { s with draws := d } := { hs.stepWanted (busLock_of_rdWait hf) with }
    exact Stored.keep_stepIssue { h with accLength := hacc hle } (hw.advance hm hlt).2.2.wanted

theorem Stored.keep (h : Stored s) (hs : Sequenced s) (he : Event s t) : Stored t := by
  have hc := h.consume
  cases he with
  | reset _ ht =>
    subst ht
    exact { hc with status := Nat.zero_le _, errorEmpty := fun hne => absurd rfl hne, terr := fun _ => rfl,
                    dataLength := Nat.zero_le _, accLength := Nat.zero_le _ }
  | command i ha hx => exact hc.keep_exec ((consume_fsm s).trans ha.2.1) hx
  | illegal w _ _ ht => subst ht; exact hc.keep_completeError fun _ => rfl
  | failed e d _ _ ht =>
    subst ht
    exact (hc.setDevPage d).keep_transportError e
  | selected ans d hf _ _ _ ht =>
    subst ht
    have hw := hs.consume.stepWanted (busLock_of_selWait ((consume_fsm s).trans hf))
    exact Stored.keep_issueWinRead { hc with } hw.wanted
  | read ans bytes d hf _ _ _ ht => subst ht; exact hc.keep_onReadOk hs.consume ((consume_fsm s).trans hf) bytes d
  | quiet _ _ _ ht => subst ht; exact hc

/-! The sequencer. -/

theorem sequenced_startRead {cnt : BitVec 11} (h0 : cnt ≠ 0) (m : Mode) (off : BitVec 10) (s : State)
    (hend : m = .bulk → off.toNat + cnt.toNat ≤ 1024) : Sequenced (startRead m off cnt s) := by
  exact StepWanted.sequenced_stepIssue ⟨count_pos h0, fun hm => ⟨hend hm, Nat.zero_le _⟩, fun _ => rfl⟩

theorem sequenced_exec {i : Instr} (hf : s.fsm = .idle) (he : exec i s = .next t) : Sequenced t := by
  rcases exec_cases (i := i) hf with ⟨v, h'⟩ | ⟨-, h'⟩ | ⟨off, cnt, -, -, -, h'⟩ | ⟨off, cnt, -, h0, h'⟩
    | ⟨off, cnt, -, h0, hend, h'⟩ <;> rw [he] at h' <;> cases h'
  · exact .of_not_busLock rfl
  · exact .of_not_busLock rfl
  · exact .of_not_busLock rfl
  · exact sequenced_startRead h0 _ _ s nofun
  · exact sequenced_startRead h0 _ _ s (fun _ => hend)

theorem Sequenced.keep (hs : Sequenced s) (he : Event s t) : Sequenced t := by
  have hc := hs.consume
  cases he with
  | reset _ ht => subst ht; exact .of_not_busLock rfl
  | command i ha hx => exact sequenced_exec ((consume_fsm s).trans ha.2.1) hx
  | illegal w _ _ ht => subst ht; exact .of_not_busLock rfl
  | failed e d _ _ ht => subst ht; exact .of_not_busLock rfl
  | selected ans d hf _ _ _ ht => subst ht; exact hc.keep_onSelectOk ((consume_fsm s).trans hf) d
  | read ans bytes d hf _ _ _ ht => subst ht; exact hc.keep_onReadOk ((consume_fsm s).trans hf) bytes d
  | quiet _ _ _ ht => subst ht; exact hc

/-! FAULT_REASON. -/

/-- Outside FAULT, no reason is named; an operation that neither faults nor names one keeps it so. -/
theorem FaultNamed.of_not_fault (h : FaultNamed s) (hs : s.fsm ≠ .fault) (ht : t.fsm ≠ .fault)
    (hr : t.faultReason = s.faultReason) : FaultNamed t := by
  have hno : s.faultReason ≠ .overlength := fun hn => hs (h.mpr hn)
  exact ⟨fun hf => absurd hf ht, fun hn => absurd (hr.symm.trans hn) hno⟩

theorem exec_faultReason {i : Instr} (hf : s.fsm = .idle) (he : exec i s = .next t) :
    t.faultReason = s.faultReason := by
  rcases exec_cases (i := i) hf with ⟨v, h'⟩ | ⟨-, h'⟩ | ⟨off, cnt, -, -, -, h'⟩ | ⟨off, cnt, -, -, h'⟩
    | ⟨off, cnt, -, -, -, h'⟩ <;> rw [he] at h' <;> cases h' <;> simp [startRead]

theorem FaultNamed.keep_onReadOk (h : FaultNamed s) (hf : s.fsm = .rdWait) (bytes : List Byte) (d : Nat) :
    FaultNamed (onReadOk bytes { s with draws := d }) := by
  have hs : s.fsm ≠ .fault := by simp [hf]
  rcases onReadOk_cases bytes { s with draws := d } with ⟨-, ho⟩ | ⟨-, -, ho⟩ | ⟨-, -, -, ho⟩ | ⟨-, -, -, ho⟩ <;>
    rw [ho]
  · exact ⟨fun _ => rfl, fun _ => rfl⟩
  · exact h.of_not_fault hs (by simp) rfl
  · exact h.of_not_fault hs (by simp) rfl
  · exact h.of_not_fault hs (not_fault_of_busLock (stepIssue_busLock _)) (stepIssue_faultReason _)

theorem FaultNamed.keep (h : FaultNamed s) (he : Event s t) : FaultNamed t := by
  have hc : FaultNamed s.consume := by simpa [FaultNamed] using h
  cases he with
  | reset _ ht => subst ht; simp [FaultNamed, onReset]
  | command i ha hx =>
    have hf := (consume_fsm s).trans ha.2.1
    exact hc.of_not_fault (by rw [hf]; decide) (exec_not_fault hf hx) (exec_faultReason hf hx)
  | illegal w ha _ ht => subst ht; exact hc.of_not_fault (by simp [ha.2.1]) (by simp) rfl
  | failed e d hb _ ht => subst ht; exact hc.of_not_fault (not_fault_of_busLock (by simpa using hb)) (by simp) rfl
  | selected ans d hf _ _ _ ht => subst ht; exact hc.of_not_fault (by simp [hf]) (by simp [onSelectOk]) rfl
  | read ans bytes d hf _ _ _ ht => subst ht; exact hc.keep_onReadOk ((consume_fsm s).trans hf) bytes d
  | quiet _ _ _ ht => subst ht; exact hc

/-- The invariant goes through every event: its parts do so one by one, and rsp_valid is raised in IDLE only. -/
theorem Inv.step (hi : Inv s) (h : step s = .next t) : Inv t := by
  have he := hi.sequenced.event h
  have hn : FaultNamed s := hi.faultReason
  exact inv_of_parts (hi.stored.keep hi.sequenced he) (hi.sequenced.keep he) (hn.keep he)
    (step_idle_of_rspValid h)

end Invariant

/-- Settles O40: in the reset state no command runs, no request was issued and every register is zero. -/
theorem invariantAtReset : Obligations.InvariantAtReset := by
  have hm : Stored State.reset :=
    { memWf := reset_memory_wf, status := Nat.zero_le _, errorEmpty := fun _ => ⟨rfl, rfl⟩, terr := fun _ => rfl
      dataLength := Nat.zero_le _, accLength := Nat.zero_le _, requests := List.forall_mem_nil _ }
  exact inv_of_parts hm (.of_not_busLock rfl) (by simp [FaultNamed, State.reset]) (fun _ => rfl)

/-- Settles O41: a consistent sequencer makes every step answer a next state, and the step keeps `Inv`. -/
theorem everyStepKeepsTheInvariant : Obligations.EveryStepKeepsTheInvariant := by
  intro s hi
  obtain ⟨t, ht, -⟩ := hi.sequenced.step_event
  exact ⟨t, ht, hi.step ht⟩

end Sys2Proof.Machine

/-! PROOFS of the answers of the transport: what a waiting read command does on each of them
(41_page_access.md section 3; 20_memory.md sections 2 to 4). -/

namespace Sys2Proof.Machine

/-! ### The page select (41_page_access.md R97, R98) -/

/-- Settles O29: the select outstanding is that of PG, and its success issues the window read. -/
theorem selectSucceeded : Obligations.SelectSucceeded := by
  intro s ans hi hf ha hok
  rw [hi.sequenced.step_select_ok hf ha hok]
  simp [onSelectOk, issueWinRead, winReadRequest]

/-- Settles O30: the failure of the outstanding select ends the command. -/
theorem selectFailed : Obligations.SelectFailed := fun _ _ hi hf ha => hi.sequenced.step_select_err hf ha

/-! ### The window read (R99 to R103) -/

section WindowRead

variable {s : State} {bytes : List Byte}

theorem onReadOk_overlength (h : s.n.toNat < bytes.length) : onReadOk bytes s = raiseFault s := by
  rw [onReadOk, if_pos h]

theorem onReadOk_page (hm : s.mode = .page) (hle : bytes.length ≤ s.n.toNat) :
    onReadOk bytes s = complete .ok (BitVec.ofNat 32 bytes.length) bytes 0 { s with acc := s.acc ++ bytes } := by
  rw [onReadOk, if_neg (Nat.not_lt.mpr hle)]
  simp only [hm, completeOk_eq]

theorem onReadOk_bulk_last (hm : s.mode = .bulk) (hle : bytes.length ≤ s.n.toNat) (hrem : s.rem.toNat ≤ bytes.length) :
    onReadOk bytes s = complete .ok (BitVec.ofNat 32 (s.acc ++ bytes).length) (s.acc ++ bytes) 0
      { s with acc := s.acc ++ bytes } := by
  rw [onReadOk, if_neg (Nat.not_lt.mpr hle)]
  simp only [hm, Nat.sub_eq_zero_of_le hrem, if_true, completeOk_eq]

theorem onReadOk_bulk_more (hm : s.mode = .bulk) (hle : bytes.length ≤ s.n.toNat) (hlt : bytes.length < s.rem.toNat) :
    onReadOk bytes s = stepIssue { s with acc := s.acc ++ bytes, off := s.off + BitVec.ofNat 10 bytes.length,
                                          rem := BitVec.ofNat 11 (s.rem.toNat - bytes.length) } := by
  have hleft : s.rem.toNat - bytes.length ≠ 0 := by omega
  rw [onReadOk, if_neg (Nat.not_lt.mpr hle)]
  simp only [hm, hleft, if_false]

theorem Sequenced.n_le_rem (hs : Sequenced s) (hf : s.fsm = .rdWait) : s.n.toNat ≤ s.rem.toNat := by
  obtain ⟨-, -, -, hn, -⟩ := hs.rdWait hf
  rw [hn]
  exact clampLen_le_rem _ _

/-- StepIssue of a step whose window read is in progress issues that read again, and changes nothing else. -/
theorem Sequenced.stepIssue_repeats (hs : Sequenced s) (hf : s.fsm = .rdWait) :
    stepIssue s = { s with bus := winReadRequest s.cfg s.off s.n :: s.bus } := by
  obtain ⟨hpg, hnames, -, hn, -⟩ := hs.rdWait hf
  rw [hpg] at hnames
  rw [stepIssue, if_pos hnames, issueWinRead, ← hpg, ← hn, ← hf]

/-- A transfer of no bytes is a step of no progress. -/
theorem Sequenced.onReadOk_nil (hs : Sequenced s) (hf : s.fsm = .rdWait) (hm : s.mode = .bulk) :
    onReadOk [] s = { s with bus := winReadRequest s.cfg s.off s.n :: s.bus } := by
  obtain ⟨-, -, hrem, -, -⟩ := hs.rdWait hf
  rw [onReadOk_bulk_more (bytes := []) hm (Nat.zero_le _) hrem, ← hs.stepIssue_repeats hf]
  simp

end WindowRead

/-- Settles O31: a PAGE_READ has one window read, whose bytes are its answer. -/
theorem pageReadCompletes : Obligations.PageReadCompletes := by
  intro s bytes hi hf hm ha hle
  rw [hi.sequenced.step_read_okBytes hf ha,
    onReadOk_page ((consume_mode s).trans hm) (by rwa [consume_n])]
  rfl

/-- Settles O32: with REM bytes the command ends, with fewer it goes on behind them; the sums of OFF and
REM stay within L, so neither register wraps. -/
theorem bulkReadAdvances : Obligations.BulkReadAdvances := by
  intro s bytes hi hf hm ha hle
  have hb : s.consume.busLock = true := (consume_busLock s).trans (busLock_of_rdWait hf)
  have hmode : s.consume.mode = .bulk := (consume_mode s).trans hm
  have hn : bytes.length ≤ s.consume.n.toNat := by rwa [consume_n]
  rw [hi.sequenced.step_read_okBytes hf ha]
  refine ⟨fun hrem => ?last, fun hne => ?more⟩
  case last =>
    rw [onReadOk_bulk_last hmode hn (by rw [consume_rem, hrem]), List.length_append, consume_acc_length]
    rfl
  case more =>
    have hlt : bytes.length < s.consume.rem.toNat := by
      have := hi.sequenced.n_le_rem hf
      rw [consume_rem]
      omega
    obtain ⟨hoff, hrem, -⟩ := (hi.sequenced.consume.stepWanted hb).advance hmode hlt
    rw [consume_off] at hoff
    rw [consume_rem] at hrem
    refine ⟨_, _, hoff, hrem, ?_⟩
    rw [onReadOk_bulk_more hmode hn hlt, consume_off, consume_rem]

/-- The j-th byte of a slice. -/
theorem Memory.slice_getElem? (m : Memory) (first : Nat) {j count : Nat} (h : j < count) :
    (Memory.slice m first count)[j]? = some (Memory.read m (first + j)) := by
  simp [Memory.slice, h]

/-- The bytes the window shows at `off`, as a slice of the page the device is on (20_memory.md R44). -/
theorem windowBytes_winAddr (s : State) (off : BitVec 10) (count : Nat) :
    windowBytes (winAddr s.cfg off) count s = Memory.slice s.mem (128 * s.devPage.toNat + off.toNat % 128) count := by
  rw [windowBytes, winAddr_toNat, Nat.add_sub_cancel_left]

theorem Sequenced.setInputs {s : State} (hs : Sequenced s) (inputs : List Input) :
    Sequenced { s with inputs := inputs } := { hs with }

/-- With an answer of the transport's own in place of the one presented, the read transfers those bytes. -/
theorem Sequenced.step_setResp {s : State} (hs : Sequenced s) (hf : s.fsm = .rdWait) (hr : s.headInput.rst = false)
    (bytes : List Byte) :
    step { s with inputs := { s.headInput with resp := some (s.bus.length, .okBytes bytes) } :: s.inputs.tail }
      = .next (onReadOk bytes s.consume) := by
  have hs' := hs.setInputs ({ s.headInput with resp := some (s.bus.length, .okBytes bytes) } :: s.inputs.tail)
  exact hs'.step_read_okBytes hf ⟨hr, rfl⟩

/-- Settles O33: the device's answer is the transport's answer with the bytes of the window, or with free
bytes while another master interleaves; which of the two the input is makes no other difference. -/
theorem windowReadObeysTheWindowLaw : Obligations.WindowReadObeysTheWindowLaw := by
  intro s k hi hf ha
  have hs := hi.sequenced
  cases hint : s.consume.interleaved with
  | false =>
    have hbytes := windowBytes_winAddr s.consume s.off (min k s.n.toNat)
    rw [consume_cfg, consume_mem] at hbytes
    refine ⟨windowBytes (winAddr s.cfg s.off) (min k s.n.toNat) s.consume, by simp [hbytes], fun _ => ⟨?_, ?_⟩, by simp⟩
    · intro j hj
      rw [hbytes, Memory.slice_length] at hj
      rw [hbytes, Memory.slice_getElem? _ _ hj]
    · rw [hs.step_setResp hf ha.1, hs.step_read_window hf ha hint]
  | true =>
    refine ⟨freeBytes s.consume.draws (min k s.n.toNat), freeBytes_length _ _, by simp,
      fun _ => ⟨rfl, _, hs.step_setResp hf ha.1 _, ?_⟩⟩
    rw [hs.step_read_free hf ha hint, onReadOk_setDraws, freeBytes_length]

/-- Settles O34: the failure of the outstanding window read ends the command. -/
theorem windowReadFailed : Obligations.WindowReadFailed := fun _ _ hi hf ha => hi.sequenced.step_read_err hf ha

/-- Settles O35: more bytes than asked for stop the block. -/
theorem overlengthAnswerFaults : Obligations.OverlengthAnswerFaults := by
  intro s bytes hi hf ha hover
  rw [hi.sequenced.step_read_okBytes hf ha, onReadOk_overlength (by rwa [consume_n])]
  rfl

/-- Settles O36: a transfer of no bytes is a step of no progress. -/
theorem zeroByteTransferRepeatsTheRead : Obligations.ZeroByteTransferRepeatsTheRead := by
  intro s hi hf hm ha
  rw [hi.sequenced.step_read_okBytes hf ha,
    hi.sequenced.consume.onReadOk_nil ((consume_fsm s).trans hf) ((consume_mode s).trans hm)]
  simp [winReadRequest]

/-! ### Zero-byte answers for ever (R103; 70_reset_and_hazards.md R146) -/

section ZeroBytes

variable {s : State}

/-- On an input that only answers, consuming it takes it off the list. -/
theorem consume_answerInput {number : Nat} {ans : Answer} {rest : List Input}
    (h : s.inputs = answerInput number ans :: rest) : s.consume = { s with inputs := rest, rspValid := false } := by
  rw [consume_of_inputs h]
  rfl

theorem answered_answerInput {ans : Answer} {rest : List Input}
    (h : s.inputs = answerInput s.bus.length ans :: rest) : answered s ans := by
  rw [answered, headInput_of_inputs h]
  exact ⟨rfl, rfl⟩

/-- A zero-byte answer in BULK mode, by the window law or by another master's hand, repeats the read. -/
theorem Sequenced.step_zeroBytes (hs : Sequenced s) (hf : s.fsm = .rdWait) (hm : s.mode = .bulk) {rest : List Input}
    (hin : s.inputs = answerInput s.bus.length (.ok 0) :: rest) :
    step s = .next { s with inputs := rest, rspValid := false, bus := winReadRequest s.cfg s.off s.n :: s.bus } := by
  have ha := answered_answerInput hin
  have hnil : onReadOk [] s.consume = { s.consume with bus := winReadRequest s.cfg s.off s.n :: s.bus } := by
    rw [hs.consume.onReadOk_nil ((consume_fsm s).trans hf) ((consume_mode s).trans hm)]
    simp
  rw [consume_answerInput hin] at hnil
  cases hint : s.consume.interleaved with
  | false =>
    rw [hs.step_read_window hf ha hint, consume_answerInput hin, Nat.zero_min, windowBytes, Memory.slice_zero, hnil]
  | true =>
    rw [hs.step_read_free hf ha hint, consume_answerInput hin, Nat.zero_min]
    exact congrArg _ hnil

end ZeroBytes

/-- Settles O37, by induction on the number of answers: each issues the read again, with the number the
next answer bears. -/
theorem zeroByteAnswersNeverComplete : Obligations.ZeroByteAnswersNeverComplete := by
  intro s m hi hf hm hv hin
  induction m generalizing s with
  | zero => exact ⟨s, rfl, hf, hv, rfl, rfl, rfl, rfl⟩
  | succ m ih =>
    rw [List.range_succ_eq_map, List.map_cons, List.map_map, Nat.add_zero] at hin
    have hstep := hi.sequenced.step_zeroBytes hf hm hin
    have hnext := hi.step hstep
    obtain ⟨t, hrun, hft, hvt, hoff, hrem, hacc, hbus⟩ := ih _ hnext hf hm rfl (by
      simp [Function.comp_def, Nat.add_assoc, Nat.add_comm 1])
    refine ⟨t, (run_next hstep).trans hrun, hft, hvt, hoff, hrem, hacc, ?_⟩
    rw [hbus, List.length_cons]
    omega

/-! ### Failed transactions and the retry (R112), and the unknown page (R115) -/

section Retry

variable {s t : State} {off : BitVec 10} {cnt : BitVec 11}

/-- A read of the page the cache names begins with its window read. -/
theorem startRead_of_names (m : Mode) (h : s.cpNames (pageOf off) = true) :
    startRead m off cnt s = issueWinRead { s with
      mode := m, off := off, rem := cnt, acc := [], interleaved := false, pg := pageOf off } := if_pos h

/-- A read of any other page begins with the select of that page. -/
theorem startRead_of_not_names (m : Mode) (h : s.cpNames (pageOf off) = false) :
    startRead m off cnt s = issuePageSel { s with
      mode := m, off := off, rem := cnt, acc := [], interleaved := false, pg := pageOf off } :=
  if_neg (Bool.eq_false_iff.mp h)

/-- StepIssue on a page the cache does not name selects that page. -/
theorem stepIssue_of_not_names (h : s.cpNames (pageOf s.off) = false) :
    (stepIssue s).fsm = .selWait ∧ (stepIssue s).bus = pageSelRequest s.cfg (pageOf s.off) :: s.bus := by
  rw [stepIssue, if_neg (Bool.eq_false_iff.mp h)]
  exact ⟨rfl, rfl⟩

theorem startRead_miss (m : Mode) (h : s.cpNames (pageOf off) = false) :
    (startRead m off cnt s).fsm = .selWait
    ∧ (startRead m off cnt s).bus = pageSelRequest s.cfg (pageOf off) :: s.bus := by
  rw [startRead_of_not_names m h]
  exact ⟨rfl, rfl⟩

theorem cpNames_iff (s : State) (p : BitVec 3) : s.cpNames p = true ↔ s.cpValid = true ∧ s.cpPage = p := by
  simp [State.cpNames]

theorem cpNames_of_invalid (h : s.cpValid = false) (p : BitVec 3) : s.cpNames p = false := by
  rw [State.cpNames, h, Bool.false_and]

end Retry

/-- Settles O23: an unknown page is no page, so both reads miss; of the answers to a select only a success
writes the cache. -/
theorem invalidCacheForcesSelect : Obligations.InvalidCacheForcesSelect := by
  refine ⟨fun s off cnt hf hv h0 => ?_, fun s hi hf => ⟨fun e ha => ?_, fun ans ha hok => ?_⟩⟩
  · have hmiss := cpNames_of_invalid hv (pageOf off)
    obtain ⟨hpf, hpb⟩ := startRead_miss (cnt := cnt) .page hmiss
    obtain ⟨hbf, hbb⟩ := startRead_miss (cnt := cnt) .bulk hmiss
    exact ⟨⟨_, exec_pageRead_pos hf h0, hpf, (startRead_cpValid _ _ _ s).trans hv, hpb⟩,
      fun hend => ⟨_, exec_bulkRead_inRange hf h0 hend, hbf, (startRead_cpValid _ _ _ s).trans hv, hbb⟩⟩
  · exact ⟨_, hi.sequenced.step_select_err hf ha, consume_cpValid s⟩
  · exact ⟨_, hi.sequenced.step_select_ok hf ha hok, rfl, consume_pg s⟩

/-- While the block waits, an error answer ends the command, wherever the device is left. -/
theorem Sequenced.step_err {s : State} (hs : Sequenced s) (hb : s.busLock = true) {e : Byte}
    (ha : answered s (.err e)) :
    ∃ d, step s = .next (completeTransportError e { s.consume with devPage := d }) := by
  rcases (busLock_iff s).mp hb with hf | hf
  · exact ⟨_, hs.step_select_err hf ha⟩
  · exact ⟨s.consume.devPage, hs.step_read_err hf ha⟩

/-- Settles O50: the failure issues nothing, and leaves the cache not naming the page whose select failed, so
the retried read misses again. -/
theorem errorsAreNotRetried : Obligations.ErrorsAreNotRetried := by
  intro s e hi hb ha
  have hs := hi.sequenced
  obtain ⟨d, hstep⟩ := hs.step_err hb ha
  have hw := hs.stepWanted hb
  have h0 : s.rem ≠ 0 := fun hz => by simpa [hz] using hw.wanted
  refine ⟨_, hstep, consume_bus s, rfl, rfl, rfl, fun hf _ => ?page, fun hf hm => ?bulk⟩
  all_goals
    obtain ⟨hpg, hnames, -, -⟩ := hs.selWait hf
    have hmiss : (completeTransportError e { s.consume with devPage := d }).cpNames (pageOf s.off) = false := by
      rw [← hpg]
      exact (consume_cpNames s s.pg).trans hnames
  case page =>
    refine ⟨_, exec_pageRead_pos rfl h0, ?_⟩
    simpa [hpg] using startRead_miss (cnt := s.rem) .page hmiss
  case bulk =>
    refine ⟨_, exec_bulkRead_inRange rfl h0 (hw.bulk hm).1, ?_⟩
    simpa [hpg] using startRead_miss (cnt := s.rem) .bulk hmiss

end Sys2Proof.Machine

/-! PROOFS of the rules over every step: FSM, bus, response, L, and what the device can and cannot
show the block (41_page_access.md sections 1 and 4; 10_state.md sections 5 to 7; 20_memory.md R37, R55, R57). -/

namespace Sys2Proof.Machine

open Host (Outcome)

/-! ### FSM, the bus and rsp_valid after each operation -/

/-- The command starts a read when it is accepted: at least one byte, and within L for a BULK_READ. -/
def startsRead : Instr → Prop
  | .pageRead _ cnt => cnt ≠ 0
  | .bulkRead off cnt => cnt ≠ 0 ∧ off.toNat + cnt.toNat ≤ 1024
  | _ => False

section Outcomes

variable {s t : State}

theorem stepIssue_issues (s : State) : ∃ r, (stepIssue s).bus = r :: s.bus := by
  rcases stepIssue_cases s with ⟨-, h⟩ | ⟨-, h⟩ <;> rw [h] <;> exact ⟨_, rfl⟩

/-- An accepted command completes at once, or starts a read and issues one request. -/
theorem exec_outcome {i : Instr} (hf : s.fsm = .idle) (he : exec i s = .next t) :
    (¬ startsRead i ∧ t.fsm = .idle ∧ t.rspValid = true ∧ t.bus = s.bus)
    ∨ (startsRead i ∧ t.busLock = true ∧ t.rspValid = s.rspValid ∧ ∃ r, t.bus = r :: s.bus) := by
  have completes {st : Status} {v : BitVec 32} (hno : ¬ startsRead i) (h : exec i s = .next (complete st v [] 0 s)) :
      ¬ startsRead i ∧ t.fsm = .idle ∧ t.rspValid = true ∧ t.bus = s.bus := by
    rw [he] at h
    cases h
    exact ⟨hno, rfl, rfl, rfl⟩
  have starts {m : Mode} {off : BitVec 10} {cnt : BitVec 11} (hs : startsRead i)
      (h : exec i s = .next (startRead m off cnt s)) :
      startsRead i ∧ t.busLock = true ∧ t.rspValid = s.rspValid ∧ ∃ r, t.bus = r :: s.bus := by
    rw [he] at h
    cases h
    exact ⟨hs, stepIssue_busLock _, stepIssue_rspValid _, stepIssue_issues _⟩
  cases i with
  | decode raw => exact .inl (completes id (whenReady_idle _ hf))
  | encode mdeg => exact .inl (completes id (whenReady_idle _ hf))
  | getPage => exact .inl (completes id (whenReady_idle _ hf))
  | invalidate =>
    cases (exec_invalidate_idle hf).symm.trans he
    exact .inl ⟨id, rfl, rfl, rfl⟩
  | pageRead off cnt =>
    by_cases h0 : cnt = 0
    · subst h0
      exact .inl (completes (fun h => h rfl) (exec_pageRead_zero hf))
    · exact .inr (starts h0 (exec_pageRead_pos hf h0))
  | bulkRead off cnt =>
    by_cases h0 : cnt = 0
    · subst h0
      exact .inl (completes (fun h => h.1 rfl) (exec_bulkRead_zero hf))
    · by_cases hend : off.toNat + cnt.toNat ≤ 1024
      · exact .inr (starts ⟨h0, hend⟩ (exec_bulkRead_inRange hf h0 hend))
      · exact .inl (completes (fun h => hend h.2) (exec_bulkRead_pastEnd hf h0 (Nat.not_le.mp hend)))

/-- A transfer stops the block, completes the command, or goes on with one more request. -/
theorem onReadOk_outcome (bytes : List Byte) (s : State) :
    (s.n.toNat < bytes.length ∧ (onReadOk bytes s).fsm = .fault ∧ (onReadOk bytes s).rspValid = s.rspValid
      ∧ (onReadOk bytes s).bus = s.bus)
    ∨ (bytes.length ≤ s.n.toNat ∧ (s.mode = .page ∨ s.rem.toNat ≤ bytes.length) ∧ (onReadOk bytes s).fsm = .idle
      ∧ (onReadOk bytes s).rspValid = true ∧ (onReadOk bytes s).bus = s.bus)
    ∨ (bytes.length ≤ s.n.toNat ∧ s.mode = .bulk ∧ bytes.length < s.rem.toNat ∧ (onReadOk bytes s).busLock = true
      ∧ (onReadOk bytes s).rspValid = s.rspValid ∧ ∃ r, (onReadOk bytes s).bus = r :: s.bus) := by
  rcases onReadOk_cases bytes s with ⟨hn, h⟩ | ⟨hn, hm, h⟩ | ⟨hn, -, hr, h⟩ | ⟨hn, hm, hr, h⟩ <;> rw [h]
  · exact .inl ⟨hn, rfl, rfl, rfl⟩
  · exact .inr (.inl ⟨hn, .inl hm, rfl, rfl, rfl⟩)
  · exact .inr (.inl ⟨hn, .inr hr, rfl, rfl, rfl⟩)
  · exact .inr (.inr ⟨hn, hm, hr, stepIssue_busLock _, stepIssue_rspValid _, stepIssue_issues _⟩)

end Outcomes

/-! ### The arrows of FSM (41_page_access.md R93) -/

theorem startsRead_cases {i : Instr} (h : startsRead i) :
    ∃ off cnt, cnt ≠ 0 ∧ (i = .pageRead off cnt ∨ (i = .bulkRead off cnt ∧ off.toNat + cnt.toNat ≤ 1024)) := by
  cases i with
  | pageRead off cnt => exact ⟨off, cnt, h, .inl rfl⟩
  | bulkRead off cnt => exact ⟨off, cnt, h.1, .inr ⟨rfl, h.2⟩⟩
  | decode | encode | invalidate | getPage => exact absurd h id

/-- Settles O43: each event that changes FSM is one of the arrows of the table. -/
theorem fsmMovesOnlyByTheTable : Obligations.FsmMovesOnlyByTheTable := by
  intro s t hi h hr hne
  cases hi.sequenced.event h with
  | reset hr' => simp [hr] at hr'
  | command i ha he =>
    rcases exec_outcome ((consume_fsm s).trans ha.2.1) he with ⟨-, ht, -⟩ | ⟨hread, hb, -⟩
    · exact absurd (ht.trans ha.2.1.symm) hne
    · obtain ⟨off, cnt, h0, hi⟩ := startsRead_cases hread
      refine .inl ⟨ha.2.1, (busLock_iff t).mp hb, off, cnt, h0, ?_⟩
      rcases hi with rfl | ⟨rfl, hend⟩
      · exact .inl ha
      · exact .inr ⟨ha, hend⟩
  | illegal w ha _ ht => subst ht; exact absurd ha.2.1.symm hne
  | failed e d hb ha ht =>
    subst ht
    rcases (busLock_iff s).mp hb with hf | hf
    · exact .inr (.inr (.inl ⟨hf, rfl, e, ha⟩))
    · exact .inr (.inr (.inr (.inl ⟨hf, rfl, e, ha⟩)))
  | selected ans d hf ha hok _ ht => subst ht; exact .inr (.inl ⟨hf, rfl, ans, ha, hok⟩)
  | read ans bytes d hf ha hlen _ ht =>
    subst ht
    have hrem := hi.sequenced.n_le_rem hf
    rcases onReadOk_outcome bytes { s.consume with draws := d } with ⟨hn, hft, -⟩ | ⟨hn, hlast, hft, -⟩
      | ⟨hn, hm, hlt, hb, -⟩ <;> simp only [consume_n, consume_mode, consume_rem] at *
    · exact .inr (.inr (.inr (.inr (.inr (.inr ⟨hf, hft, ans, _, ha, hlen, hn⟩)))))
    · exact .inr (.inr (.inr (.inr (.inl
        ⟨hf, hft, ans, _, ha, hlen, hn, hlast.imp_right fun hle => by omega⟩))))
    · rcases (busLock_iff _).mp hb with hft | hft
      · exact .inr (.inr (.inr (.inr (.inr (.inl ⟨hf, hft, hm, ans, _, ha, hlen, hn, hlt⟩)))))
      · exact absurd (hft.trans hf.symm) hne
  | quiet _ _ _ ht => subst ht; exact absurd (consume_fsm s) hne

/-! ### Where transactions are issued (41_page_access.md R107, R111) -/

section IssuePoints

variable {s t : State}

theorem accepts_unique {i j : Instr} (hi : accepts s (encode i)) (hj : accepts s (encode j)) : i = j := by
  have hw : encode i = encode j := Option.some.inj (hi.2.2.symm.trans hj.2.2)
  exact Except.ok.inj ((decode_encode i).symm.trans (hw ▸ decode_encode j))

theorem answered_unique {a b : Answer} (ha : answered s a) (hb : answered s b) : a = b :=
  congrArg Prod.snd (Option.some.inj (ha.2.symm.trans hb.2))

theorem not_issuePoint_of_reset (hr : s.headInput.rst = true) : ¬ issuePoint s := by
  rintro (⟨_, _, ⟨h, _⟩, _⟩ | ⟨_, _, ⟨h, _⟩, _⟩ | ⟨_, _, ⟨h, _⟩, _⟩ | ⟨_, _, _, _, ⟨h, _⟩, _⟩) <;> simp [hr] at h

/-- In IDLE an issue point is the acceptance of a command that starts a read. -/
theorem issuePoint_idle_iff (hf : s.fsm = .idle) : issuePoint s ↔ ∃ i, accepts s (encode i) ∧ startsRead i := by
  constructor
  · rintro (⟨off, cnt, ha, h0⟩ | ⟨off, cnt, ha, h0, hend⟩ | ⟨hf', -⟩ | ⟨hf', -⟩)
    · exact ⟨_, ha, h0⟩
    · exact ⟨_, ha, h0, hend⟩
    · simp [hf] at hf'
    · simp [hf] at hf'
  · rintro ⟨i, ha, hread⟩
    obtain ⟨off, cnt, h0, rfl | ⟨rfl, hend⟩⟩ := startsRead_cases hread
    · exact .inl ⟨off, cnt, ha, h0⟩
    · exact .inr (.inl ⟨off, cnt, ha, h0, hend⟩)

/-- While the block waits, an issue point is a success answer after which the command goes on. -/
theorem issuePoint_waiting_iff (hb : s.busLock = true) : issuePoint s ↔
    (s.fsm = .selWait ∧ ∃ ans, answered s ans ∧ ∀ e, ans ≠ .err e)
    ∨ (s.fsm = .rdWait ∧ s.mode = .bulk ∧ ∃ ans k, answered s ans ∧ transferred s ans = some k
        ∧ k ≤ s.n.toNat ∧ k < s.rem.toNat) := by
  refine ⟨?_, fun h => .inr (.inr h)⟩
  rintro (⟨off, cnt, ha, -⟩ | ⟨off, cnt, ha, -⟩ | h)
  · simp [busLock_of_idle ha.2.1] at hb
  · simp [busLock_of_idle ha.2.1] at hb
  · exact h

theorem not_issuePoint_of_answered_err {e : Byte} (hb : s.busLock = true) (ha : answered s (.err e)) :
    ¬ issuePoint s := by
  rw [issuePoint_waiting_iff hb]
  rintro (⟨-, ans, ha', hok⟩ | ⟨-, -, ans, k, ha', hk, -⟩)
  · exact hok e (answered_unique ha' ha)
  · rw [answered_unique ha' ha] at hk
    simp [transferred] at hk

/-- A step issues one request at an issue point, and none elsewhere. -/
theorem Event.issues (he : Event s t) :
    (issuePoint s ∧ ∃ r, t.bus = r :: s.bus) ∨ (¬ issuePoint s ∧ t.bus = s.bus) := by
  cases he with
  | reset hr ht => subst ht; exact .inr ⟨not_issuePoint_of_reset hr, consume_bus s⟩
  | command i ha hx =>
    have hpoint := issuePoint_idle_iff ha.2.1
    rcases exec_outcome ((consume_fsm s).trans ha.2.1) hx with ⟨hno, -, -, hbus⟩ | ⟨hread, -, -, hbus⟩ <;>
      rw [consume_bus] at hbus
    · refine .inr ⟨fun hp => ?_, hbus⟩
      obtain ⟨j, hj, hread⟩ := hpoint.mp hp
      exact hno (accepts_unique ha hj ▸ hread)
    · exact .inl ⟨hpoint.mpr ⟨i, ha, hread⟩, hbus⟩
  | illegal w ha hw ht =>
    subst ht
    refine .inr ⟨fun hp => ?_, consume_bus s⟩
    obtain ⟨j, hj, -⟩ := (issuePoint_idle_iff ha.2.1).mp hp
    rw [Option.some.inj (ha.2.2.symm.trans hj.2.2)] at hw
    exact not_illegalWord_encode j hw
  | failed e d hb ha ht => subst ht; exact .inr ⟨not_issuePoint_of_answered_err hb ha, consume_bus s⟩
  | selected ans d hf ha hok _ ht =>
    subst ht
    exact .inl ⟨(issuePoint_waiting_iff (busLock_of_selWait hf)).mpr (.inl ⟨hf, ans, ha, hok⟩),
      _, congrArg _ (consume_bus s)⟩
  | read ans bytes d hf ha hlen _ ht =>
    subst ht
    have hpoint := issuePoint_waiting_iff (busLock_of_rdWait hf)
    have hno (h : ¬ (s.mode = .bulk ∧ bytes.length ≤ s.n.toNat ∧ bytes.length < s.rem.toNat)) : ¬ issuePoint s := by
      rw [hpoint]
      rintro (⟨hf', -⟩ | ⟨-, hm, ans', k, ha', hk, hn, hlt⟩)
      · simp [hf] at hf'
      · rw [answered_unique ha' ha, hlen] at hk
        cases hk
        exact h ⟨hm, hn, hlt⟩
    rcases onReadOk_outcome bytes { s.consume with draws := d } with ⟨hn, -, -, hbus⟩ | ⟨-, hlast, -, -, hbus⟩
      | ⟨hn, hm, hlt, -, -, hbus⟩ <;> simp only [consume_n, consume_mode, consume_rem, consume_bus] at *
    · exact .inr ⟨hno fun h => by omega, hbus⟩
    · refine .inr ⟨hno ?_, hbus⟩
      rintro ⟨hm, -, hlt⟩
      rcases hlast with hm' | hle
      · simp [hm] at hm'
      · omega
    · exact .inl ⟨hpoint.mpr (.inr ⟨hf, hm, ans, _, ha, hlen, hn, hlt⟩), hbus⟩
  | quiet hr hc hstray ht =>
    subst ht
    refine .inr ⟨?_, consume_bus s⟩
    rintro (⟨off, cnt, ⟨-, hf, hw⟩, -⟩ | ⟨off, cnt, ⟨-, hf, hw⟩, -⟩ | ⟨hf, ans, ha, -⟩ | ⟨hf, -, ans, k, ha, -⟩)
    · simp [hc hf] at hw
    · simp [hc hf] at hw
    · exact hstray (busLock_of_selWait hf) ans ha
    · exact hstray (busLock_of_rdWait hf) ans ha

end IssuePoints

/-- Settles O44: every event issues one request at an issue point and none elsewhere. -/
theorem transactionsAreIssuedOnlyAtIssuePoints : Obligations.TransactionsAreIssuedOnlyAtIssuePoints := by
  intro s t hi h
  rcases (hi.sequenced.event h).issues with ⟨hp, hbus⟩ | ⟨hno, hbus⟩
  · exact ⟨fun _ => hbus, fun hno => absurd hp hno⟩
  · exact ⟨fun hp => absurd hp hno, fun _ => hbus⟩

/-- Settles O48: an event that issues from a free bus is the acceptance of a read, and one that frees the bus
is a completion, a fault or a reset. -/
theorem busLockCoversTheWholeRead : Obligations.BusLockCoversTheWholeRead := by
  refine ⟨fun s t hi h => ⟨fun hs ht => ?rises, fun hs ht => ?falls⟩,
    fun s => ⟨busLock_iff s, busy_iff s, cmdReady_iff s, faulted_iff s⟩⟩
  case rises =>
    cases hi.sequenced.event h with
    | reset _ ht' => subst ht'; simp [State.busLock, onReset] at ht
    | command i ha hx =>
      rcases exec_outcome ((consume_fsm s).trans ha.2.1) hx with ⟨-, hf, -⟩ | ⟨-, -, -, hbus⟩
      · simp [busLock_of_idle hf] at ht
      · rw [consume_bus] at hbus
        exact ⟨ha.2.1, hbus⟩
    | illegal w _ _ ht' => subst ht'; simp [State.busLock] at ht
    | failed e d hb => simp [hs] at hb
    | selected ans d hf => simp [busLock_of_selWait hf] at hs
    | read ans bytes d hf => simp [busLock_of_rdWait hf] at hs
    | quiet _ _ _ ht' => subst ht'; simp [hs] at ht
  case falls =>
    cases hi.sequenced.event h with
    | reset hr => exact .inr (.inr hr)
    | command i ha => simp [busLock_of_idle ha.2.1] at hs
    | illegal w ha => simp [busLock_of_idle ha.2.1] at hs
    | failed e d _ _ ht' => subst ht'; exact .inl rfl
    | selected ans d _ _ _ _ ht' => subst ht'; cases ht
    | read ans bytes d _ _ _ _ ht' =>
      subst ht'
      rcases onReadOk_outcome bytes { s.consume with draws := d } with ⟨-, hf, -⟩ | ⟨-, -, -, hv, -⟩ | ⟨-, -, -, hb, -⟩
      · exact .inr (.inl hf)
      · exact .inl hv
      · exact absurd (hb.symm.trans ht) (by decide)
    | quiet _ _ _ ht' => subst ht'; simp [hs] at ht

/-! ### What every step leaves alone (20_memory.md R37; 10_state.md R30, R31) -/

section Frame

variable {s t : State}

theorem exec_cfg_mem {i : Instr} (hf : s.fsm = .idle) (h : exec i s = .next t) : t.cfg = s.cfg ∧ t.mem = s.mem := by
  rcases exec_cases (i := i) hf with ⟨v, h'⟩ | ⟨-, h'⟩ | ⟨off, cnt, -, -, -, h'⟩ | ⟨off, cnt, -, -, h'⟩
    | ⟨off, cnt, -, -, -, h'⟩ <;> rw [h] at h' <;> cases h' <;> simp [startRead]

theorem onReadOk_cfg_mem (bytes : List Byte) (s : State) :
    (onReadOk bytes s).cfg = s.cfg ∧ (onReadOk bytes s).mem = s.mem := by
  rcases onReadOk_cases bytes s with ⟨-, h⟩ | ⟨-, -, h⟩ | ⟨-, -, -, h⟩ | ⟨-, -, -, h⟩ <;> simp [h]

theorem step_cfg_mem (h : step s = .next t) : t.cfg = s.cfg ∧ t.mem = s.mem := by
  have hc := consume_cfg s
  have hm := consume_mem s
  rcases step_cases h with ⟨w, i, -, hf, -, -, he⟩ | ⟨w, e, -, -, -, -, ho⟩ | ⟨-, ho⟩ | ⟨req, ans, -, -, -, ha⟩
    | ⟨-, -, -, ho⟩
  · obtain ⟨hcfg, hmem⟩ := exec_cfg_mem ((consume_fsm s).trans hf) he
    exact ⟨hcfg.trans hc, hmem.trans hm⟩
  · cases ho; exact ⟨hc, hm⟩
  · cases ho; exact ⟨hc, hm⟩
  · rcases onAnswer_cases ha with ⟨e, d, -, rfl⟩ | ⟨d, -, rfl⟩ | ⟨bytes, d, -, rfl⟩
    · exact ⟨hc, hm⟩
    · exact ⟨hc, hm⟩
    · obtain ⟨hcfg, hmem⟩ := onReadOk_cfg_mem bytes { s.consume with draws := d }
      exact ⟨hcfg.trans hc, hmem.trans hm⟩
  · cases ho; exact ⟨hc, hm⟩

/-- The four response registers (10_state.md R31). -/
def State.response (s : State) : BitVec 4 × BitVec 32 × Byte × List Byte :=
  (s.rspStatus, s.rspValue, s.rspTerr, s.rspData)

theorem consume_response (s : State) : s.consume.response = s.response := by simp [State.response]

theorem stepIssue_response (s : State) : (stepIssue s).response = s.response := by simp [State.response]

theorem exec_response {i : Instr} (hf : s.fsm = .idle) (h : exec i s = .next t) (hv : t.rspValid = false) :
    t.response = s.response := by
  rcases exec_cases (i := i) hf with ⟨v, h'⟩ | ⟨-, h'⟩ | ⟨off, cnt, -, -, -, h'⟩ | ⟨off, cnt, -, -, h'⟩
    | ⟨off, cnt, -, -, -, h'⟩ <;> rw [h] at h' <;> cases h'
  · cases hv
  · cases hv
  · cases hv
  · exact stepIssue_response _
  · exact stepIssue_response _

theorem onReadOk_response {bytes : List Byte} (hv : (onReadOk bytes s).rspValid = false) :
    (onReadOk bytes s).response = s.response := by
  rcases onReadOk_cases bytes s with ⟨-, h⟩ | ⟨-, -, h⟩ | ⟨-, -, -, h⟩ | ⟨-, -, -, h⟩ <;> rw [h] at hv ⊢
  · rfl
  · cases hv
  · cases hv
  · exact stepIssue_response _

/-- Without reset only a completion writes the response registers. -/
theorem step_response (hr : s.headInput.rst = false) (h : step s = .next t) (hv : t.rspValid = false) :
    t.response = s.response := by
  rw [← consume_response s]
  rcases step_cases h with ⟨w, i, -, hf, -, -, he⟩ | ⟨w, e, -, -, -, -, ho⟩ | ⟨hr', -⟩ | ⟨req, ans, -, -, -, ha⟩
    | ⟨-, -, -, ho⟩
  · exact exec_response ((consume_fsm s).trans hf) he hv
  · cases ho; cases hv
  · simp [hr] at hr'
  · rcases onAnswer_cases ha with ⟨e, d, -, rfl⟩ | ⟨d, -, rfl⟩ | ⟨bytes, d, -, rfl⟩
    · cases hv
    · rfl
    · exact onReadOk_response (s := { s.consume with draws := d }) hv
  · cases ho; rfl

/-- Without reset a completion ends a command that held the bus, or one accepted in the step. -/
theorem step_completes (hr : s.headInput.rst = false) (h : step s = .next t) (hv : t.rspValid = true) :
    s.busLock = true ∨ ∃ w, accepts s w := by
  rcases step_cases h with ⟨w, i, -, hf, hc, -⟩ | ⟨w, e, -, hf, hc, -⟩ | ⟨hr', -⟩ | ⟨req, ans, -, hreq, -⟩
    | ⟨-, -, -, ho⟩
  · exact .inr ⟨w, hr, hf, hc⟩
  · exact .inr ⟨w, hr, hf, hc⟩
  · simp [hr] at hr'
  · by_cases hb : s.busLock = true
    · exact .inl hb
    · simp [outstanding_none (Bool.not_eq_true _ ▸ hb)] at hreq
  · cases ho; simp at hv

/-- A waiting command is completed exactly when it is left in IDLE. -/
theorem step_waiting_rspValid_iff (hr : s.headInput.rst = false) (hb : s.busLock = true) (h : step s = .next t) :
    t.rspValid = true ↔ t.fsm = .idle := by
  refine ⟨step_idle_of_rspValid h, fun hf => ?_⟩
  have hbusy {u : State} (hu : u.busLock = true) : u.fsm ≠ .idle := fun hi => by simp [busLock_of_idle hi] at hu
  rcases step_waiting_cases hr hb h with rfl | ⟨e, d, rfl⟩ | ⟨d, rfl⟩ | ⟨-, bytes, d, rfl⟩
  · exact absurd hf (hbusy (by simpa using hb))
  · rfl
  · cases hf
  · rcases onReadOk_outcome bytes { s.consume with draws := d } with ⟨-, hft, -⟩ | ⟨-, -, -, hv, -⟩ | ⟨-, -, -, hb', -⟩
    · exact absurd (hft.symm.trans hf) (by decide)
    · exact hv
    · exact absurd hf (hbusy hb')

end Frame

/-- Settles O49: every operation of a step writes registers of the block or of the device only. -/
theorem noStepWritesMemoryOrParameters : Obligations.NoStepWritesMemoryOrParameters := by
  intro s t h
  obtain ⟨hcfg, hmem⟩ := step_cfg_mem h
  exact ⟨hcfg, hmem, fun a => by rw [hmem]⟩

/-- Settles O45: the request is on the bus of a state with the invariant, where every window read is legal. -/
theorem noWindowReadCrossesAPage : Obligations.NoWindowReadCrossesAPage := by
  intro s t addr len hi h hbus
  have hlegal := (hi.step h).requests (.winRead addr len) (by simp [hbus])
  rw [(step_cfg_mem h).1] at hlegal
  rcases hlegal with ⟨p, hp⟩ | ⟨off, len', hreq, hpos, hpage⟩
  · cases hp
  · cases hreq
    exact ⟨off, rfl, hpage, hpos, by omega⟩

/-- Settles O46: only a completion writes the response or raises rsp_valid, and a waiting command leaves for
IDLE only by one. -/
theorem responseIsHeldUntilCompletion : Obligations.ResponseIsHeldUntilCompletion := by
  intro s t h hr
  refine ⟨fun hv => ?_, fun hv => ⟨step_idle_of_rspValid h hv, step_completes hr h hv⟩,
    fun hb => step_waiting_rspValid_iff hr hb h⟩
  simpa [State.response] using step_response hr h hv

/-! ### What the block sees of the device (10_state.md R32; 20_memory.md R57) -/

/-- The same block in front of a device with other contents and on another page. -/
def State.withDevice (s : State) (m : Memory) (d : BitVec 3) : State := { s with mem := m, devPage := d }

section Device

variable {s t : State} (m : Memory) (d : BitVec 3)

theorem stepIssue_withDevice (s : State) : stepIssue (s.withDevice m d) = (stepIssue s).withDevice m d := by
  rcases stepIssue_cases s with ⟨hn, h⟩ | ⟨hn, h⟩ <;> rw [h]
  · exact if_pos hn
  · exact if_neg (Bool.eq_false_iff.mp hn)

theorem onReadOk_withDevice (bytes : List Byte) (s : State) :
    onReadOk bytes (s.withDevice m d) = (onReadOk bytes s).withDevice m d := by
  rcases onReadOk_cases bytes s with ⟨hn, h⟩ | ⟨hn, hm, h⟩ | ⟨hn, hm, hr, h⟩ | ⟨hn, hm, hr, h⟩ <;> rw [h]
  · exact onReadOk_overlength hn
  · exact onReadOk_page hm hn
  · have hlast := onReadOk_bulk_last (s := s.withDevice m d) hm hn hr
    rw [List.length_append] at hlast
    exact hlast
  · rw [← stepIssue_withDevice]
    exact onReadOk_bulk_more hm hn hr

theorem exec_withDevice {i : Instr} (hf : s.fsm = .idle) (h : exec i s = .next t) :
    exec i (s.withDevice m d) = .next (t.withDevice m d) := by
  have hf' : (s.withDevice m d).fsm = .idle := hf
  have hstart (mode : Mode) (off : BitVec 10) (cnt : BitVec 11) :
      startRead mode off cnt (s.withDevice m d) = (startRead mode off cnt s).withDevice m d :=
    stepIssue_withDevice m d { s with mode := mode, off := off, rem := cnt, acc := [], interleaved := false }
  cases i with
  | invalidate =>
    cases (exec_invalidate_idle hf).symm.trans h
    exact exec_invalidate_idle hf'
  | decode | encode | getPage =>
    cases (whenReady_idle _ hf).symm.trans h
    exact whenReady_idle _ hf'
  | pageRead off cnt =>
    by_cases h0 : cnt = 0
    · subst h0
      cases (exec_pageRead_zero hf).symm.trans h
      exact exec_pageRead_zero hf'
    · cases (exec_pageRead_pos hf h0).symm.trans h
      rw [exec_pageRead_pos hf' h0, hstart]
  | bulkRead off cnt =>
    by_cases h0 : cnt = 0
    · subst h0
      cases (exec_bulkRead_zero hf).symm.trans h
      exact exec_bulkRead_zero hf'
    · by_cases hend : off.toNat + cnt.toNat ≤ 1024
      · cases (exec_bulkRead_inRange hf h0 hend).symm.trans h
        rw [exec_bulkRead_inRange hf' h0 hend, hstart]
      · cases (exec_bulkRead_pastEnd hf h0 (Nat.not_le.mp hend)).symm.trans h
        exact exec_bulkRead_pastEnd hf' h0 (Nat.not_le.mp hend)

/-- Consuming the input is the same before any device, up to the page it leaves the device on. -/
theorem consume_withDevice (s : State) : ∃ d', (s.withDevice m d).consume = s.consume.withDevice m d' := by
  have hhead : (s.withDevice m d).headInput = s.headInput := rfl
  have hlock : (s.withDevice m d).busLock = s.busLock := rfl
  by_cases ho : s.headInput.outOfBand = true
  · by_cases hb : s.busLock = true
    · refine ⟨s.headInput.pageDraw, ?_⟩
      simp only [State.consume, hhead, actOutOfBand, ho, if_true]
      rw [if_pos (by exact hb), if_pos (by exact hb)]
      rfl
    · refine ⟨s.headInput.pageDraw, ?_⟩
      simp only [State.consume, hhead, actOutOfBand, ho, if_true]
      rw [if_neg (by exact hb), if_neg (by exact hb)]
      rfl
  · have hq : s.headInput.outOfBand = false := by simpa using ho
    refine ⟨d, ?_⟩
    rw [consume_quiet hq, consume_quiet (hhead ▸ hq)]
    rfl

/-- The answers to a page select do not tell one device from another; those to a window read do not while
another master interleaves. -/
theorem onAnswer_withDevice {inp : Input} {req : BusRequest} {ans : Answer}
    (hblind : req.isWinRead = false ∨ s.interleaved = true) (h : onAnswer inp req ans s = .next t) :
    ∃ d', onAnswer inp req ans (s.withDevice m d) = .next (t.withDevice m d') := by
  cases req with
  | pageSel addr wdata =>
    cases ans with
    | err e => cases h; exact ⟨inp.pageDraw, rfl⟩
    | ok k | okBytes bs =>
      simp only [onAnswer] at h ⊢
      split at h <;> cases h
      rename_i haddr
      exact ⟨pageAfterSelect inp wdata s, if_pos haddr⟩
  | winRead addr len =>
    cases ans with
    | err e => cases h; exact ⟨d, rfl⟩
    | okBytes bs => cases h; exact ⟨d, congrArg _ (onReadOk_withDevice m d bs s)⟩
    | ok k =>
      have hint : s.interleaved = true := by simpa [BusRequest.isWinRead] using hblind
      simp only [onAnswer, deliver] at h ⊢
      rw [if_pos hint] at h
      cases h
      rw [if_pos (by exact hint)]
      exact ⟨d, congrArg _ (onReadOk_withDevice m d _ { s with draws := s.draws + min k len.toNat })⟩

/-- A step that answers no window read of the window law is the same before any device. -/
theorem step_withDevice (hblind : s.fsm ≠ .rdWait ∨ s.consume.interleaved = true) (h : step s = .next t) :
    ∃ d', step (s.withDevice m d) = .next (t.withDevice m d') := by
  obtain ⟨d₁, hc⟩ := consume_withDevice m d s
  rcases step_cases h with ⟨w, i, hr, hf, hcmd, hd, he⟩ | ⟨w, e, hr, hf, hcmd, hd, ho⟩ | ⟨hr, ho⟩
    | ⟨req, ans, hr, hreq, hresp, ha⟩ | ⟨hr, hno, hnone, ho⟩
  · refine ⟨d₁, ?_⟩
    rw [step_legal (s := s.withDevice m d) hr hf hcmd hd, hc]
    exact exec_withDevice m d₁ ((consume_fsm s).trans hf) he
  · cases ho
    exact ⟨d₁, by rw [step_illegal (s := s.withDevice m d) hr hf hcmd hd, hc]; rfl⟩
  · cases ho
    exact ⟨s.headInput.pageDraw, by rw [step_reset (s := s.withDevice m d) hr, hc]; rfl⟩
  · have hblind' : req.isWinRead = false ∨ s.consume.interleaved = true := by
      refine hblind.imp_left fun hf => ?_
      obtain ⟨-, ⟨-, a, w, rfl⟩ | ⟨hf', -⟩⟩ := outstanding_some hreq
      · rfl
      · exact absurd hf' hf
    rw [step_answer (s := s.withDevice m d) hr hreq hresp, hc]
    exact onAnswer_withDevice m d₁ hblind' ha
  · cases ho
    refine ⟨d₁, ?_⟩
    have hnone' : answerFor s.headInput (s.consume.withDevice m d₁) = none := hnone
    have hquiet := onEvent_none hr hnone'
    rw [← hc] at hquiet ⊢
    exact (step_event (s := s.withDevice m d) (.inr hno)).trans hquiet

end Device

/-- Settles O22: outside RD_WAIT a step is the same before any device; this one has the same L. -/
theorem blockDoesNotSeeTheDevicePage : Obligations.BlockDoesNotSeeTheDevicePage := by
  intro s t d hf h
  obtain ⟨d', hstep⟩ := step_withDevice s.mem d (.inl hf) h
  refine ⟨d', hstep.trans ?_⟩
  rw [← (step_cfg_mem h).2]
  rfl

section Interleaving

variable {s : State}

theorem consume_interleaved_of_interleaved (h : s.interleaved = true) : s.consume.interleaved = true := by
  unfold State.consume actOutOfBand
  split
  · split
    · rfl
    · exact h
  · exact h

/-- An action of another master under bus_lock: DEV_PAGE and the bytes in ACC are lost. -/
theorem consume_outOfBand (hb : s.busLock = true) (ho : s.headInput.outOfBand = true) :
    s.consume = { s with inputs := s.inputs.tail, rspValid := false, devPage := s.headInput.pageDraw,
                         interleaved := true, acc := freeBytes s.draws s.acc.length,
                         draws := s.draws + s.acc.length } := by
  rw [State.consume, actOutOfBand, if_pos ho, if_pos (by exact hb)]

/-- A step sees its state only as consumed. -/
theorem step_congr {u : State} (hi : s.headInput = u.headInput) (hc : s.consume = u.consume) : step s = step u := by
  simp only [step, hi, hc]

/-- So it does not see which bytes of ACC the other master's action made free. -/
theorem step_setAcc {acc : List Byte} (hb : s.busLock = true) (ho : s.headInput.outOfBand = true)
    (hlen : acc.length = s.acc.length) : step { s with acc := acc } = step s := by
  refine step_congr rfl ?_
  rw [consume_outOfBand hb ho, consume_outOfBand (s := { s with acc := acc }) hb ho, hlen]
  rfl

end Interleaving

/-- Settles O51: an interleaved command is blind to the device, and the interleaving itself discards what
stood in ACC. -/
theorem interleavedReadsAreUnconstrained : Obligations.InterleavedReadsAreUnconstrained := by
  refine ⟨fun s t m d _ hint h => ?before, fun s t m d acc hb ho hlen h => ?during⟩
  case before =>
    obtain ⟨d', hstep⟩ := step_withDevice m d (.inr (consume_interleaved_of_interleaved hint)) h
    exact ⟨_, hstep, rfl, rfl⟩
  case during =>
    rw [← step_setAcc hb ho hlen] at h
    have hint : ({ s with acc := acc } : State).consume.interleaved = true := by
      rw [consume_outOfBand (s := { s with acc := acc }) hb ho]
    obtain ⟨d', hstep⟩ := step_withDevice m d (.inr hint) h
    exact ⟨_, hstep, rfl, rfl⟩

end Sys2Proof.Machine

/-! PROOFS of whole read commands: what a command has done when it completes OK, the bytes it returns under
the obligations of R139 and the window law, and the page cache it leaves (41_page_access.md R94, R105,
R108). -/

namespace Sys2Proof.Machine

open Host (Outcome)

/-! ### A read command under way -/

/-- A read command of `cnt` bytes from `off` waits for the transport: ACC holds what lies between `off` and
OFF, and REM bytes are still wanted. -/
structure ReadUnderWay (m : Mode) (off : BitVec 10) (cnt : BitVec 11) (s : State) : Prop where
  sequenced : Sequenced s
  locked : s.busLock = true
  mode : s.mode = m
  reached : s.off.toNat = off.toNat + s.acc.length
  left : s.acc.length + s.rem.toNat = cnt.toNat

/-- What a read command of `cnt` bytes from `off` leaves when it completes OK: the response holds ACC; the
cache names the page of OFF, where its last window read began; a PAGE_READ had that one step, and the last
step of a BULK_READ reached the end of the bytes wanted. -/
structure ReadDone (m : Mode) (off : BitVec 10) (cnt : BitVec 11) (t : State) : Prop where
  data : t.rspData = t.acc
  value : t.rspValue = BitVec.ofNat 32 t.acc.length
  named : t.cpNames (pageOf t.off) = true
  page : m = .page → t.off = off ∧ t.acc.length ≤ (clampLen off cnt).toNat
  bulk : m = .bulk → t.acc.length = cnt.toNat ∧ t.off.toNat + t.rem.toNat = off.toNat + cnt.toNat
    ∧ 1 ≤ t.rem.toNat ∧ t.off.toNat % 128 + t.rem.toNat ≤ 128

/-- Where a read command can stand while there is no reset. -/
inductive ReadPhase (m : Mode) (off : BitVec 10) (cnt : BitVec 11) (s : State) : Prop where
  | running : ReadUnderWay m off cnt s → s.rspValid = false → ReadPhase m off cnt s
  | stopped : s.fsm = .fault → s.rspValid = false → ReadPhase m off cnt s
  | failed : s.rspValid = true → s.rspStatus ≠ 0 → ReadPhase m off cnt s
  | done : s.rspValid = true → ReadDone m off cnt s → ReadPhase m off cnt s

section Phases

variable {m : Mode} {off : BitVec 10} {cnt : BitVec 11} {s t : State}

theorem ReadUnderWay.consume (h : ReadUnderWay m off cnt s) : ReadUnderWay m off cnt s.consume where
  sequenced := h.sequenced.consume
  locked := by simpa using h.locked
  mode := by simpa using h.mode
  reached := by simpa using h.reached
  left := by simpa using h.left

theorem ReadUnderWay.keep_onSelectOk (h : ReadUnderWay m off cnt s) (hf : s.fsm = .selWait) (d : BitVec 3) :
    ReadUnderWay m off cnt (onSelectOk { s with devPage := d }) where
  sequenced := h.sequenced.keep_onSelectOk hf d
  locked := rfl
  mode := h.mode
  reached := h.reached
  left := h.left

/-- A PAGE_READ still waits at its own offset for all its bytes. -/
theorem ReadUnderWay.page_start (h : ReadUnderWay .page off cnt s) : s.acc = [] ∧ s.off = off ∧ s.rem = cnt := by
  have hacc := h.sequenced.page h.locked h.mode
  have hoff := h.reached
  have hrem := h.left
  rw [hacc, List.length_nil] at hoff hrem
  exact ⟨hacc, BitVec.eq_of_toNat_eq hoff, BitVec.eq_of_toNat_eq (by omega)⟩

theorem ReadUnderWay.done_page (h : ReadUnderWay .page off cnt s) (hf : s.fsm = .rdWait) {bytes : List Byte}
    (hle : bytes.length ≤ s.n.toNat) (d : Nat) :
    ReadDone .page off cnt (complete .ok (BitVec.ofNat 32 bytes.length) bytes 0
      { s with draws := d, acc := s.acc ++ bytes }) := by
  obtain ⟨hacc, hoff, hrem⟩ := h.page_start
  obtain ⟨hpg, hnames, -, hn, -⟩ := h.sequenced.rdWait hf
  rw [hn, hoff, hrem] at hle
  have happend : s.acc ++ bytes = bytes := by rw [hacc, List.nil_append]
  exact { data := happend.symm
          value := by rw [complete_rspValue, complete_acc, happend]
          named := hpg ▸ hnames
          page := fun _ => ⟨hoff, by rw [complete_acc, happend]; exact hle⟩
          bulk := nofun }

theorem ReadUnderWay.done_bulk (h : ReadUnderWay .bulk off cnt s) (hf : s.fsm = .rdWait) {bytes : List Byte}
    (hle : bytes.length ≤ s.n.toNat) (hall : s.rem.toNat ≤ bytes.length) (d : Nat) :
    ReadDone .bulk off cnt (complete .ok (BitVec.ofNat 32 (s.acc.length + bytes.length)) (s.acc ++ bytes) 0
      { s with draws := d, acc := s.acc ++ bytes }) := by
  obtain ⟨hpg, hnames, hpos, hn, -⟩ := h.sequenced.rdWait hf
  have hreached := h.reached
  have hleft := h.left
  rw [hn, clampLen_toNat] at hle
  refine { data := rfl, value := ?_, named := hpg ▸ hnames, page := nofun, bulk := fun _ => ?_ }
  · rw [complete_rspValue, complete_acc, List.length_append]
  · simp only [complete_acc, complete_off, complete_rem, List.length_append]
    omega

theorem ReadUnderWay.keep_onReadOk (h : ReadUnderWay m off cnt s) (hv : s.rspValid = false) (hf : s.fsm = .rdWait)
    (bytes : List Byte) (d : Nat) : ReadPhase m off cnt (onReadOk bytes { s with draws := d }) := by
  have hnext := h.sequenced.keep_onReadOk hf bytes d
  rcases onReadOk_cases bytes { s with draws := d } with ⟨-, ho⟩ | ⟨hle, hm, ho⟩ | ⟨hle, hm, hall, ho⟩
    | ⟨hle, hm, hlt, ho⟩
  · rw [ho]
    exact .stopped rfl hv
  · obtain rfl : m = .page := h.mode.symm.trans hm
    rw [ho]
    exact .done rfl (h.done_page hf hle d)
  · obtain rfl : m = .bulk := h.mode.symm.trans hm
    rw [ho]
    exact .done rfl (h.done_bulk hf hle hall d)
  · obtain ⟨hoff, hrem, -⟩ := (h.sequenced.stepWanted h.locked).advance hm hlt
    have hreached := h.reached
    have hleft := h.left
    dsimp only at hlt ho
    rw [ho] at hnext ⊢
    refine .running ⟨hnext, stepIssue_busLock _, by simpa using h.mode, ?_, ?_⟩ (by simpa using hv)
    · rw [stepIssue_off, stepIssue_acc, hoff, List.length_append]
      omega
    · rw [stepIssue_rem, stepIssue_acc, hrem, List.length_append]
      omega

theorem ReadUnderWay.step (h : ReadUnderWay m off cnt s) (hr : s.headInput.rst = false) (hs : step s = .next t) :
    ReadPhase m off cnt t := by
  have hbusy : s.fsm ≠ .idle := fun hf => by simpa [busLock_of_idle hf] using h.locked
  cases h.sequenced.event hs with
  | reset hr' => simp [hr] at hr'
  | command i ha => exact absurd ha.2.1 hbusy
  | illegal w ha => exact absurd ha.2.1 hbusy
  | failed e d _ _ ht => subst ht; exact .failed rfl (by simp [statusCode])
  | selected ans d hf _ _ _ ht =>
    subst ht
    exact .running (h.consume.keep_onSelectOk ((consume_fsm s).trans hf) d) (consume_rspValid s)
  | read ans bytes d hf _ _ _ ht =>
    subst ht
    exact h.consume.keep_onReadOk (consume_rspValid s) ((consume_fsm s).trans hf) bytes d
  | quiet _ _ _ ht => subst ht; exact .running h.consume (consume_rspValid s)

/-- Until the command completes, a step without reset keeps it in one of its phases. -/
theorem ReadPhase.step (h : ReadPhase m off cnt s) (hv : s.rspValid = false) (hr : s.headInput.rst = false)
    (hs : step s = .next t) : ReadPhase m off cnt t := by
  cases h with
  | running hrun _ => exact hrun.step hr hs
  | stopped hf _ =>
    cases (step_fault hr hf).symm.trans hs
    exact .stopped ((consume_fsm s).trans hf) (consume_rspValid s)
  | failed hv' _ => simp [hv] at hv'
  | done hv' _ => simp [hv] at hv'

theorem ReadPhase.readDone (h : ReadPhase m off cnt s) (hv : s.rspValid = true) (hok : s.rspStatus = 0) :
    ReadDone m off cnt s := by
  cases h with
  | running _ hv' => simp [hv] at hv'
  | stopped _ hv' => simp [hv] at hv'
  | failed _ herr => exact absurd hok herr
  | done _ hd => exact hd

theorem readUnderWay_startRead (h0 : cnt ≠ 0) (hend : m = .bulk → off.toNat + cnt.toNat ≤ 1024) (s : State) :
    ReadUnderWay m off cnt (startRead m off cnt s) where
  sequenced := sequenced_startRead h0 m off s hend
  locked := stepIssue_busLock _
  mode := by simp [startRead]
  reached := by simp [startRead]
  left := by simp [startRead]

/-- A command that completes in the step that accepts it is not completed again. -/
theorem eq_of_completesAfter {k : Nat} {u : State} (hs : step s = .next u) (hv : u.rspValid = true)
    (hc : completesAfter k s t) : t = u :=
  completesAfter_induct (P := fun _ => False) (Q := (· = u)) (fun _ _ hno _ => absurd hno id) hs
    (fun hv' => by simp [hv] at hv') (fun _ => rfl) hc

/-- A read that was started and completes OK, with no reset on the way, is done. -/
theorem readDone_of_completesAfter {k : Nat} (h0 : cnt ≠ 0) (hend : m = .bulk → off.toNat + cnt.toNat ≤ 1024)
    (hs : step s = .next (startRead m off cnt s.consume)) (hnr : ∀ inp ∈ s.inputs, inp.rst = false)
    (hc : completesAfter k s t) (hok : t.rspStatus = 0) : ReadDone m off cnt t := by
  have hv : (startRead m off cnt s.consume).rspValid = false := by simp [startRead]
  refine completesAfter_induct (Q := fun b => b.rspStatus = 0 → ReadDone m off cnt b)
    (P := fun a => (∀ inp ∈ a.inputs, inp.rst = false) ∧ a.rspValid = false ∧ ReadPhase m off cnt a)
    (fun a b ⟨hi, hva, hp⟩ hab => ?_) hs
    (fun hv => ⟨step_keeps_noReset hnr hs, hv, .running (readUnderWay_startRead h0 hend _) hv⟩)
    (fun hv' => by simp [hv] at hv') hc hok
  have hb := hp.step hva (headInput_rst_of_noReset hi) hab
  exact ⟨fun hv' => ⟨step_keeps_noReset hi hab, hv', hb⟩, hb.readDone⟩

end Phases

/-! ### The bytes of ACC under the obligations and the window law (20_memory.md R48) -/

/-- ACC holds the bytes of `l` from `off` on, and the device is where the cache says: no other master has
interleaved. -/
structure Faithful (l : Memory) (off : BitVec 10) (s : State) : Prop where
  alone : s.interleaved = false
  synced : synced s
  mem : s.mem = l
  acc : s.acc = Memory.slice l off.toNat s.acc.length

section Data

variable {l : Memory} {m : Mode} {off : BitVec 10} {cnt : BitVec 11} {s t : State}

theorem Faithful.consume (h : Faithful l off s) (hq : s.headInput.outOfBand = false) : Faithful l off s.consume := by
  rw [consume_quiet hq]
  exact { h with }

theorem onReadOk_device (bytes : List Byte) (s : State) :
    (onReadOk bytes s).interleaved = s.interleaved ∧ (onReadOk bytes s).devPage = s.devPage := by
  rcases onReadOk_cases bytes s with ⟨-, h⟩ | ⟨-, -, h⟩ | ⟨-, -, -, h⟩ | ⟨-, -, -, h⟩ <;> simp [h]

theorem onReadOk_acc (bytes : List Byte) (s : State) :
    (onReadOk bytes s).acc = s.acc ∨ (onReadOk bytes s).acc = s.acc ++ bytes := by
  rcases onReadOk_cases bytes s with ⟨-, h⟩ | ⟨-, -, h⟩ | ⟨-, -, -, h⟩ | ⟨-, -, -, h⟩ <;> simp [h]

/-- The window in which a synced block reads is that of the page of OFF: its bytes go on where ACC ends. -/
theorem Faithful.window_bytes (h : Faithful l off s) (hrun : ReadUnderWay m off cnt s) (hf : s.fsm = .rdWait)
    (count : Nat) :
    windowBytes (winAddr s.cfg s.off) count s = Memory.slice l (off.toNat + s.acc.length) count := by
  obtain ⟨hpg, hnames, -, -, -⟩ := hrun.sequenced.rdWait hf
  obtain ⟨hvalid, hpage⟩ := (cpNames_iff s s.pg).mp hnames
  have hdev : s.devPage = pageOf s.off := (h.synced hvalid).trans (hpage.trans hpg)
  rw [windowBytes_at s s.off count hdev, h.mem, hrun.reached]

theorem Faithful.keep_onReadOk (h : Faithful l off s) {count : Nat} (d : Nat) :
    Faithful l off (onReadOk (Memory.slice l (off.toNat + s.acc.length) count) { s with draws := d }) := by
  generalize hbytes : Memory.slice l (off.toNat + s.acc.length) count = bytes
  obtain ⟨hvalid, hpage⟩ := onReadOk_cache bytes { s with draws := d }
  obtain ⟨halone, hdev⟩ := onReadOk_device bytes { s with draws := d }
  refine ⟨halone.trans h.alone, ?_, (onReadOk_cfg_mem bytes { s with draws := d }).2.trans h.mem, ?_⟩
  · intro hv
    rw [hdev, hpage]
    exact h.synced (hvalid ▸ hv)
  · rcases onReadOk_acc bytes { s with draws := d } with hacc | hacc <;> rw [hacc]
    · exact h.acc
    · rw [List.length_append, ← hbytes, Memory.slice_length, ← Memory.slice_append, ← h.acc]

/-- A lawful step of a read keeps ACC faithful; and the device where the cache says, unless a failed select
ends the command. -/
theorem Faithful.step (h : Faithful l off s) (hrun : ReadUnderWay m off cnt s) (hl : s.headInput.lawful)
    (hs : step s = .next t) :
    t.acc = Memory.slice l off.toNat t.acc.length ∧ (t.busLock = true → Faithful l off t) := by
  obtain ⟨hr, hq, hwindow⟩ := hl
  have hc := h.consume hq
  have hbusy : s.fsm ≠ .idle := fun hf => by simpa [busLock_of_idle hf] using hrun.locked
  have keep {u : State} (hu : Faithful l off u) :
      u.acc = Memory.slice l off.toNat u.acc.length ∧ (u.busLock = true → Faithful l off u) := ⟨hu.acc, fun _ => hu⟩
  cases hrun.sequenced.event hs with
  | reset hr' => simp [hr] at hr'
  | command i ha => exact absurd ha.2.1 hbusy
  | illegal w ha => exact absurd ha.2.1 hbusy
  | failed e d _ _ ht => subst ht; exact ⟨rfl, fun hb => by cases hb⟩
  | selected ans d hf _ _ hd ht =>
    subst ht
    exact keep { hc with synced := fun _ => (hd hc.alone).trans (consume_pg s).symm }
  | read ans bytes d hf ha hlen hbytes ht =>
    subst ht
    cases ans with
    | err e => cases hlen
    | okBytes bs => exact absurd ha.2 (hwindow _ _)
    | ok k =>
      have hwin := hc.window_bytes hrun.consume ((consume_fsm s).trans hf) (min k s.n.toNat)
      rw [consume_cfg, consume_off, ← hbytes k rfl hc.alone] at hwin
      rw [hwin]
      exact keep (hc.keep_onReadOk d)
  | quiet _ _ _ ht => subst ht; exact keep hc

theorem headInput_lawful (h : ∀ inp ∈ s.inputs, inp.lawful) : s.headInput.lawful := by
  unfold State.headInput
  cases hi : s.inputs with
  | nil => exact ⟨rfl, rfl, by simp [quietInput]⟩
  | cons inp rest => exact h inp (by simp [hi])

theorem step_keeps_lawful (hi : ∀ inp ∈ s.inputs, inp.lawful) (h : step s = .next t) : ∀ inp ∈ t.inputs, inp.lawful :=
  fun inp hinp => hi inp (List.mem_of_mem_tail (step_inputs h ▸ hinp))

/-- A started read that completes OK under the obligations holds the bytes of L from `off` on in ACC. -/
theorem acc_of_completesAfter {k : Nat} (h0 : cnt ≠ 0) (hend : m = .bulk → off.toNat + cnt.toNat ≤ 1024)
    (hs : step s = .next (startRead m off cnt s.consume)) (hsync : synced s)
    (hl : ∀ inp ∈ s.inputs, inp.lawful) (hc : completesAfter k s t) :
    t.acc = Memory.slice s.mem off.toNat t.acc.length := by
  have hv : (startRead m off cnt s.consume).rspValid = false := by simp [startRead]
  have hsync' : synced (startRead m off cnt s.consume) := by
    rw [consume_quiet (headInput_lawful hl).2.1]
    simpa [synced, startRead] using hsync
  have hstart : Faithful s.mem off (startRead m off cnt s.consume) :=
    { alone := by simp [startRead], synced := hsync', mem := by simp [startRead], acc := by simp [startRead] }
  refine completesAfter_induct (Q := fun b => b.acc = Memory.slice s.mem off.toNat b.acc.length)
    (P := fun a => (∀ inp ∈ a.inputs, inp.lawful) ∧ a.rspValid = false
      ∧ (a.fsm = .fault ∨ (ReadUnderWay m off cnt a ∧ Faithful s.mem off a)))
    (fun a b ⟨hi, hva, hp⟩ hab => ?_) hs
    (fun hv => ⟨step_keeps_lawful hl hs, hv, .inr ⟨readUnderWay_startRead h0 hend _, hstart⟩⟩)
    (fun hv' => by simp [hv] at hv') hc
  have hla := headInput_lawful hi
  rcases hp with hf | ⟨hrun, hfaith⟩
  · cases (step_fault hla.1 hf).symm.trans hab
    exact ⟨fun hv' => ⟨step_keeps_lawful hi hab, hv', .inl ((consume_fsm a).trans hf)⟩, fun hv' => by simp at hv'⟩
  · obtain ⟨hacc, hnext⟩ := hfaith.step hrun hla hab
    refine ⟨fun hv' => ⟨step_keeps_lawful hi hab, hv', ?_⟩, fun _ => hacc⟩
    cases hrun.step hla.1 hab with
    | running hrun' _ => exact .inr ⟨hrun', hnext hrun'.locked⟩
    | stopped hf _ => exact .inl hf
    | failed hv'' _ => simp [hv'] at hv''
    | done hv'' _ => simp [hv'] at hv''

end Data

/-! ### The acceptance of a read command -/

section Acceptance

variable {s t : State} {off : BitVec 10} {cnt : BitVec 11}

theorem step_accepts {i : Instr} (ha : accepts s (encode i)) : step s = exec i s.consume :=
  step_legal ha.1 ha.2.1 ha.2.2 (decode_encode i)

theorem consume_idle {i : Instr} (ha : accepts s (encode i)) : s.consume.fsm = .idle := (consume_fsm s).trans ha.2.1

theorem step_pageRead_zero (ha : accepts s (encode (.pageRead off 0))) :
    step s = .next (complete .ok 0 [] 0 s.consume) := by
  rw [step_accepts ha, exec_pageRead_zero (consume_idle ha)]

theorem step_pageRead_pos (ha : accepts s (encode (.pageRead off cnt))) (h0 : cnt ≠ 0) :
    step s = .next (startRead .page off cnt s.consume) := by
  rw [step_accepts ha, exec_pageRead_pos (consume_idle ha) h0]

theorem step_bulkRead_zero (ha : accepts s (encode (.bulkRead off 0))) :
    step s = .next (complete .ok 0 [] 0 s.consume) := by
  rw [step_accepts ha, exec_bulkRead_zero (consume_idle ha)]

theorem step_bulkRead_pastEnd (ha : accepts s (encode (.bulkRead off cnt))) (h0 : cnt ≠ 0)
    (hend : 1024 < off.toNat + cnt.toNat) : step s = .next (complete .errRange 0 [] 0 s.consume) := by
  rw [step_accepts ha, exec_bulkRead_pastEnd (consume_idle ha) h0 hend]

theorem step_bulkRead_inRange (ha : accepts s (encode (.bulkRead off cnt))) (h0 : cnt ≠ 0)
    (hend : off.toNat + cnt.toNat ≤ 1024) : step s = .next (startRead .bulk off cnt s.consume) := by
  rw [step_accepts ha, exec_bulkRead_inRange (consume_idle ha) h0 hend]

/-- A BULK_READ of at least one byte that completes OK was within L. -/
theorem bulkRead_inRange_of_ok {k : Nat} (ha : accepts s (encode (.bulkRead off cnt))) (h0 : cnt ≠ 0)
    (hc : completesAfter k s t) (hok : t.rspStatus = 0) : off.toNat + cnt.toNat ≤ 1024 := by
  by_contra hend
  cases eq_of_completesAfter (step_bulkRead_pastEnd ha h0 (Nat.not_le.mp hend)) rfl hc
  exact absurd hok (by simp [statusCode])

end Acceptance

/-- Settles O53: done, the command holds all COUNT bytes in ACC, which under the obligations are those of L. -/
theorem bulkReadReturnsTheReferenceBytes : Obligations.BulkReadReturnsTheReferenceBytes := by
  intro s t off cnt k hsync ha hl hc hok
  by_cases h0 : cnt = 0
  · subst h0
    cases eq_of_completesAfter (step_bulkRead_zero ha) rfl hc
    rfl
  · have hend := bulkRead_inRange_of_ok ha h0 hc hok
    have hs := step_bulkRead_inRange ha h0 hend
    have hd := readDone_of_completesAfter h0 (fun _ => hend) hs (fun inp hi => (hl inp hi).1) hc hok
    have hacc := acc_of_completesAfter h0 (fun _ => hend) hs hsync hl hc
    rw [hd.data, hacc, (hd.bulk rfl).1]

/-- Settles O54: done, the command holds what its one window read transferred, at most the clamp. -/
theorem pageReadReturnsAReferencePrefix : Obligations.PageReadReturnsAReferencePrefix := by
  intro s t off cnt k hsync ha hl hc hok
  by_cases h0 : cnt = 0
  · subst h0
    cases eq_of_completesAfter (step_pageRead_zero ha) rfl hc
    exact ⟨0, Nat.zero_le _, rfl, rfl⟩
  · have hs := step_pageRead_pos ha h0
    have hd := readDone_of_completesAfter (m := .page) h0 (nofun) hs (fun inp hi => (hl inp hi).1) hc hok
    have hacc := acc_of_completesAfter (m := .page) h0 (nofun) hs hsync hl hc
    have hle := (hd.page rfl).2
    have hpage := clampLen_le_page off cnt
    rw [clampLen_toNat] at hle
    rw [clampLen_toNat] at hpage
    refine ⟨t.acc.length, hle, ?_, hd.data.trans hacc⟩
    rw [hd.value, BitVec.toNat_ofNat]
    omega

/-! ### The page cache when a command ends (R105) -/

section CacheAtEnd

variable {s t : State} {off : BitVec 10} {cnt : BitVec 11}

theorem ReadDone.cache {m : Mode} (h : ReadDone m off cnt t) :
    t.cpValid = true ∧ t.cpPage.toNat = t.off.toNat / 128 := (cpNames_pageOf_iff t t.off).mp h.named

/-- The last step of a BULK_READ lies in the page of the last byte. -/
theorem ReadDone.bulk_cache (h : ReadDone .bulk off cnt t) :
    t.cpValid = true ∧ t.cpPage.toNat = (off.toNat + cnt.toNat - 1) / 128 := by
  obtain ⟨hvalid, hpage⟩ := h.cache
  obtain ⟨-, hend, hpos, hin⟩ := h.bulk rfl
  exact ⟨hvalid, by omega⟩

theorem ReadDone.page_cache (h : ReadDone .page off cnt t) :
    t.cpValid = true ∧ t.cpPage.toNat = off.toNat / 128 := by
  rw [← (h.page rfl).1]
  exact h.cache

/-- A command that only completes leaves the cache as it was. -/
theorem complete_consume_cache {st : Status} {v : BitVec 32} (hs : step s = .next (complete st v [] 0 s.consume)) :
    ∃ t, step s = .next t ∧ t.cpValid = s.cpValid ∧ t.cpPage = s.cpPage :=
  ⟨_, hs, consume_cpValid s, consume_cpPage s⟩

end CacheAtEnd

/-- Settles O55: what a finished read leaves the cache naming; an error answer leaves it as it is, which in
RD_WAIT is the page of OFF; every other end is a bare completion. -/
theorem cacheAfterEachOutcome : Obligations.CacheAfterEachOutcome := by
  refine ⟨fun s t off cnt k h0 hnr hc hok => ⟨fun ha => ?bulk, fun ha => ?page⟩,
    fun s e hi ha => ⟨fun hf => ?select, fun hf => ?read⟩,
    fun s w ha hw => ?others⟩
  case bulk =>
    have hend := bulkRead_inRange_of_ok ha h0 hc hok
    exact (readDone_of_completesAfter h0 (fun _ => hend) (step_bulkRead_inRange ha h0 hend) hnr hc hok).bulk_cache
  case page =>
    exact (readDone_of_completesAfter (m := .page) h0 (nofun) (step_pageRead_pos ha h0) hnr hc hok).page_cache
  case select => exact ⟨_, hi.sequenced.step_select_err hf ha, consume_cpValid s, consume_cpPage s⟩
  case read =>
    obtain ⟨hpg, hnames, -, -, -⟩ := hi.rdWait hf
    obtain ⟨hvalid, hpage⟩ := (cpNames_iff s s.pg).mp hnames
    exact ⟨_, hi.sequenced.step_read_err hf ha, (consume_cpValid s).trans hvalid,
      (consume_cpPage s).trans (hpage.trans hpg)⟩
  case others =>
    rcases hw with hill | ⟨off, rfl⟩ | ⟨off, rfl⟩ | ⟨off, cnt, rfl, hend⟩
    · obtain ⟨e, hd⟩ := decode_error_of_illegalWord hill
      exact complete_consume_cache (step_illegal ha.1 ha.2.1 ha.2.2 hd)
    · exact complete_consume_cache (step_pageRead_zero ha)
    · exact complete_consume_cache (step_bulkRead_zero ha)
    · have h0 : cnt ≠ 0 := by
        rintro rfl
        have := off.isLt
        simp only [BitVec.ofNat_eq_ofNat, BitVec.toNat_ofNat] at hend
        omega
      exact complete_consume_cache (step_bulkRead_pastEnd ha h0 hend)

end Sys2Proof.Machine

/-! PROOFS of the runs with full answers, and of the hazards of a cache that does not know where the device
is (41_page_access.md R106; 70_reset_and_hazards.md R139, R140). -/

namespace Sys2Proof.Machine

open Host (Outcome)

/-! ### Runs that complete OK, counted (41_page_access.md R106) -/

/-- The command accepted or waiting in `s` completes OK with `data` bytes in the last of `answers + 1` steps,
each but the last having issued one request, `reads` of them window reads. -/
def CompletesOk (answers : Nat) (s : State) (data reads : Nat) (rest : List Input) : Prop :=
  ∃ t issued, completesAfter answers s t ∧ t.rspStatus = 0 ∧ t.rspData.length = data ∧ t.inputs = rest
    ∧ t.bus = issued ++ s.bus ∧ issued.length = answers ∧ (issued.filter BusRequest.isWinRead).length = reads

section Counting

variable {s u t : State} {rest : List Input}

theorem completesAfter_zero (hs : step s = .next t) (hv : t.rspValid = true) : completesAfter 0 s t :=
  ⟨(run_next hs).trans (run_zero t), hv, fun _ _ hj => absurd hj (Nat.not_lt_zero _)⟩

theorem completesAfter_succ {k : Nat} (hs : step s = .next u) (hv : u.rspValid = false) (hc : completesAfter k u t) :
    completesAfter (k + 1) s t := by
  obtain ⟨hrun, ht, hquiet⟩ := hc
  refine ⟨(run_next hs).trans hrun, ht, fun j w hj hw => ?_⟩
  rw [run_next hs] at hw
  cases j with
  | zero => cases hw; exact hv
  | succ j => exact hquiet j w (Nat.lt_of_succ_lt_succ hj) hw

/-- A step that issues one request, before a run that completes. -/
theorem CompletesOk.after_issue {k data reads : Nat} {r : BusRequest} (hs : step s = .next u) (hv : u.rspValid = false)
    (hb : u.bus = r :: s.bus) (h : CompletesOk k u data reads rest) :
    CompletesOk (k + 1) s data (reads + if r.isWinRead then 1 else 0) rest := by
  obtain ⟨t, issued, hc, hok, hdata, hin, hbus, hlen, hreads⟩ := h
  refine ⟨t, issued ++ [r], completesAfter_succ hs hv hc, hok, hdata, hin, ?_, ?_, ?_⟩
  · rw [hbus, hb, List.append_assoc, List.singleton_append]
  · rw [List.length_append, hlen, List.length_singleton]
  · rw [List.filter_append, List.length_append, hreads]
    cases r <;> rfl

theorem fullAnswers_succ (first count : Nat) :
    fullAnswers first (count + 1) = answerInput first (.ok 128) :: fullAnswers (first + 1) count := by
  simp [fullAnswers, List.range_succ_eq_map, Function.comp_def, Nat.add_assoc, Nat.add_comm 1]

end Counting

/-- A read command waits in `f` with the step at `off`, REM = `rem` and `got` bytes in ACC. -/
structure Waits (f : Fsm) (m : Mode) (off : BitVec 10) (rem : BitVec 11) (got : Nat) (s : State) : Prop where
  sequenced : Sequenced s
  fsm : s.fsm = f
  mode : s.mode = m
  off : s.off = off
  rem : s.rem = rem
  got : s.acc.length = got

/-- The same, and the next `answers` inputs answer its transactions in turn, each in full. -/
structure Awaits (f : Fsm) (m : Mode) (off : BitVec 10) (rem : BitVec 11) (got answers : Nat) (rest : List Input)
    (s : State) : Prop extends Waits f m off rem got s where
  inputs : s.inputs = fullAnswers s.bus.length answers ++ rest

section FullAnswers

variable {m : Mode} {off : BitVec 10} {rem cnt : BitVec 11} {got k : Nat} {rest : List Input} {s : State}

theorem Awaits.head {f : Fsm} (h : Awaits f m off rem got (k + 1) rest s) :
    s.inputs = answerInput s.bus.length (.ok 128) :: (fullAnswers (s.bus.length + 1) k ++ rest) := by
  rw [h.inputs, fullAnswers_succ, List.cons_append]

/-- The full answer to the select: the window read of the same step is issued, and waits in its turn. -/
theorem Awaits.step_select (h : Awaits .selWait m off rem got (k + 1) rest s) :
    ∃ u r, step s = .next u ∧ u.rspValid = false ∧ u.bus = r :: s.bus ∧ r.isWinRead = true
      ∧ Awaits .rdWait m off rem got k rest u := by
  have hc := consume_answerInput h.head
  have hstep := h.sequenced.step_select_ok h.fsm (answered_answerInput h.head) (by simp)
  have hseq := h.sequenced.keep (h.sequenced.event hstep)
  rw [hc] at hstep hseq
  exact ⟨_, _, hstep, rfl, rfl, rfl, ⟨hseq, rfl, h.mode, h.off, h.rem, h.got⟩, rfl⟩

theorem Waits.n_eq (h : Waits .rdWait m off rem got s) : s.n = clampLen off rem := by
  obtain ⟨-, -, -, hn, -⟩ := h.sequenced.rdWait h.fsm
  rw [hn, h.off, h.rem]

/-- The full answer to the window read: as many bytes as were asked for. -/
theorem Awaits.step_read (h : Awaits .rdWait m off rem got (k + 1) rest s) :
    ∃ bytes c, bytes.length = (clampLen off rem).toNat ∧ step s = .next (onReadOk bytes c)
      ∧ Waits .rdWait m off rem got c ∧ c.rspValid = false ∧ c.bus = s.bus
      ∧ c.inputs = fullAnswers (s.bus.length + 1) k ++ rest := by
  obtain ⟨bytes, d, hlen, -, hstep⟩ := h.sequenced.step_read_ok h.fsm (answered_answerInput h.head) (by simp)
  rw [transferred, h.n_eq, min_eq_right (clampLen_le_page off rem)] at hlen
  rw [consume_answerInput h.head] at hstep
  have hseq : Sequenced { s with
      inputs := fullAnswers (s.bus.length + 1) k ++ rest, rspValid := false, draws := d } := { h.sequenced with }
  exact ⟨bytes, _, (Option.some.inj hlen).symm, hstep, ⟨hseq, h.fsm, h.mode, h.off, h.rem, h.got⟩, rfl, rfl, rfl⟩

/-- A read that waits for its select completes as one that waits for its window read, after one request
more. -/
theorem Awaits.completesOk_select {data reads : Nat} (h : Awaits .selWait m off rem got (k + 2) rest s)
    (hread : ∀ u, Awaits .rdWait m off rem got (k + 1) rest u → CompletesOk k u data reads rest) :
    CompletesOk (k + 1) s data (reads + 1) rest := by
  obtain ⟨u, r, hs, hv, hb, hr, hu⟩ := h.step_select
  simpa [hr] using (hread u hu).after_issue hs hv hb

/-- A PAGE_READ ends with its window read. -/
theorem Awaits.completesOk_page (h : Awaits .rdWait .page off rem 0 1 rest s) :
    CompletesOk 0 s (clampLen off rem).toNat 0 rest := by
  obtain ⟨bytes, c, hlen, hstep, hc, -, hbus, hin⟩ := h.step_read
  rw [onReadOk_page hc.mode (by rw [hlen, hc.n_eq])] at hstep
  exact ⟨_, [], completesAfter_zero hstep rfl, rfl, hlen, hin, hbus, rfl, rfl⟩

/-- A BULK_READ ends with the window read that transfers all it still wants. -/
theorem Awaits.completesOk_last (h : Awaits .rdWait .bulk off rem got 1 rest s)
    (hlast : rem.toNat ≤ 128 - off.toNat % 128) : CompletesOk 0 s (got + rem.toNat) 0 rest := by
  obtain ⟨bytes, c, hlen, hstep, hc, -, hbus, hin⟩ := h.step_read
  have hall : bytes.length = rem.toNat := by rw [hlen, clampLen_toNat, min_eq_left hlast]
  rw [onReadOk_bulk_last hc.mode (by rw [hlen, hc.n_eq]) (by rw [hall, hc.rem])] at hstep
  have hdata : (c.acc ++ bytes).length = got + rem.toNat := by rw [List.length_append, hc.got, hall]
  exact ⟨_, [], completesAfter_zero hstep rfl, rfl, hdata, hin, hbus, rfl, rfl⟩

/-- The cache names one page only. -/
theorem not_cpNames_of_page_ne {off off' : BitVec 10} (hnames : s.cpNames (pageOf off) = true)
    (hne : off.toNat / 128 ≠ off'.toNat / 128) : s.cpNames (pageOf off') = false := by
  rw [Bool.eq_false_iff]
  intro hsame
  exact hne (((cpNames_pageOf_iff s off).mp hnames).2.symm.trans ((cpNames_pageOf_iff s off').mp hsame).2)

/-- A transfer up to the end of the page, with bytes wanted beyond it, is followed by a select. -/
theorem Waits.next_page (h : Waits .rdWait .bulk off rem got s) {bytes : List Byte}
    (hpage : bytes.length = 128 - off.toNat % 128) (hmore : bytes.length < rem.toNat) :
    ∃ off' rem' r, off'.toNat = off.toNat + bytes.length ∧ rem'.toNat = rem.toNat - bytes.length
      ∧ Waits .selWait .bulk off' rem' (got + bytes.length) (onReadOk bytes s)
      ∧ (onReadOk bytes s).bus = r :: s.bus ∧ r.isWinRead = false ∧ (onReadOk bytes s).rspValid = s.rspValid := by
  obtain ⟨hpg, hnames, -, -, -⟩ := h.sequenced.rdWait h.fsm
  have hw := h.sequenced.stepWanted (busLock_of_rdWait h.fsm)
  have hn : bytes.length ≤ s.n.toNat := by rw [h.n_eq, clampLen_toNat]; omega
  have hlt : bytes.length < s.rem.toNat := by rw [h.rem]; exact hmore
  obtain ⟨hoff, hrem, hnext⟩ := hw.advance h.mode hlt
  have hseq := hnext.sequenced_stepIssue
  have hmiss : s.cpNames (pageOf (s.off + BitVec.ofNat 10 bytes.length)) = false := by
    refine not_cpNames_of_page_ne (hpg ▸ hnames) ?_
    rw [hoff, hpage, h.off]
    omega
  obtain ⟨hf, hbus⟩ := stepIssue_of_not_names (s := { s with
    acc := s.acc ++ bytes, off := s.off + BitVec.ofNat 10 bytes.length,
    rem := BitVec.ofNat 11 (s.rem.toNat - bytes.length) }) hmiss
  rw [onReadOk_bulk_more h.mode hn hlt]
  refine ⟨_, _, _, hoff.trans (by rw [h.off]), hrem.trans (by rw [h.rem]),
    ⟨hseq, hf, (stepIssue_mode _).trans h.mode, stepIssue_off _, stepIssue_rem _, ?_⟩, hbus, rfl, stepIssue_rspValid _⟩
  rw [stepIssue_acc, List.length_append, h.got]

/-- A BULK_READ that waits for a window read with `p` more pages to come, by induction on `p`: each of them
costs one select and one window read. -/
theorem Awaits.completesOk_bulk {p : Nat} (hp : (off.toNat + rem.toNat - 1) / 128 = off.toNat / 128 + p)
    (h : Awaits .rdWait .bulk off rem got (2 * p + 1) rest s) :
    CompletesOk (2 * p) s (got + rem.toNat) p rest := by
  obtain ⟨-, -, hpos, -, -⟩ := h.sequenced.rdWait h.fsm
  rw [h.rem] at hpos
  induction p generalizing s off rem got with
  | zero => exact h.completesOk_last (by omega)
  | succ p ih =>
    obtain ⟨bytes, c, hlen, hstep, hc, hv, hbus, hin⟩ := h.step_read
    have hpage : bytes.length = 128 - off.toNat % 128 := by rw [hlen, clampLen_toNat]; omega
    obtain ⟨off', rem', r, hoff, hrem, hwait, hissue, hr, hquiet⟩ := hc.next_page hpage (by omega)
    have hu : Awaits .selWait .bulk off' rem' (got + bytes.length) (2 * p + 2) rest (onReadOk bytes c) :=
      { hwait with inputs := by rw [onReadOk_inputs, hissue, hin, List.length_cons, hbus]; rfl }
    have hnext := hu.completesOk_select (reads := p) fun v hv => ih (by omega) hv (by omega)
    have hall : got + bytes.length + rem'.toNat = got + rem.toNat := by omega
    have hdone := hnext.after_issue hstep (hquiet.trans hv) (hissue.trans (by rw [hbus]))
    rw [hall, hr] at hdone
    exact hdone

/-- A read that is accepted with all its answers following: it completes as one that waits for its first
window read, after one request more, or two if the cache does not name its page. -/
theorem completesOk_start {data reads : Nat} (hf : s.fsm = .idle) (h0 : cnt ≠ 0)
    (hend : m = .bulk → off.toNat + cnt.toNat ≤ 1024) {i : Instr}
    (hexec : ∀ c : State, c.fsm = .idle → exec i c = .next (startRead m off cnt c)) {extra : Nat}
    (hextra : extra = if s.cpValid = true ∧ s.cpPage.toNat = off.toNat / 128 then 0 else 1)
    (hin : s.inputs = commandInput i :: fullAnswers (s.bus.length + 1) (k + 1 + extra) ++ rest)
    (hread : ∀ u, Awaits .rdWait m off cnt 0 (k + 1) rest u → CompletesOk k u data reads rest) :
    CompletesOk (k + 1 + extra) s data (reads + 1) rest := by
  have hstep := step_commandInput (rest := fullAnswers (s.bus.length + 1) (k + 1 + extra) ++ rest) hf hin
  rw [hexec _ (by exact hf)] at hstep
  have hseq := sequenced_startRead h0 m off { s with
    inputs := fullAnswers (s.bus.length + 1) (k + 1 + extra) ++ rest, rspValid := false } hend
  cases hnames : s.cpNames (pageOf off) with
  | true =>
    rw [if_pos ((cpNames_pageOf_iff s off).mp hnames)] at hextra
    subst hextra
    rw [startRead_of_names m (by exact hnames)] at hstep hseq
    exact (hread _ ⟨⟨hseq, rfl, rfl, rfl, rfl, rfl⟩, rfl⟩).after_issue hstep rfl rfl
  | false =>
    rw [if_neg (fun hc => by simp [(cpNames_pageOf_iff s off).mpr hc] at hnames)] at hextra
    subst hextra
    rw [startRead_of_not_names m (by exact hnames)] at hstep hseq
    have hwait : Awaits .selWait m off cnt 0 (k + 2) rest (issuePageSel { s with
        inputs := fullAnswers (s.bus.length + 1) (k + 2) ++ rest, rspValid := false, mode := m, off := off,
        rem := cnt, acc := [], interleaved := false, pg := pageOf off }) := ⟨⟨hseq, rfl, rfl, rfl, rfl, rfl⟩, rfl⟩
    exact (hwait.completesOk_select hread).after_issue hstep rfl rfl

end FullAnswers

/-- Settles O56: a read from its start, and then the count of its pages; a PAGE_READ has the one page. -/
theorem transactionCounts : Obligations.TransactionCounts := by
  intro s off cnt rest hf h0
  dsimp only
  generalize hextra : (if s.cpValid = true ∧ s.cpPage.toNat = off.toNat / 128 then 0 else 1) = extra
  refine ⟨fun hend => ?bulk, fun hin => ?page⟩
  case bulk =>
    have hcnt : 1 ≤ cnt.toNat := count_pos h0
    obtain ⟨p, hp⟩ : ∃ p, (off.toNat + cnt.toNat - 1) / 128 = off.toNat / 128 + p := Nat.exists_eq_add_of_le (by omega)
    have hpages : (off.toNat + cnt.toNat - 1) / 128 - off.toNat / 128 + 1 = p + 1 := by omega
    have htotal : p + 1 + (p + 1 - 1 + extra) = 2 * p + 1 + extra := by omega
    rw [hpages, htotal]
    intro hin
    obtain ⟨t, issued, hc, hok, hdata, hrest, hbus, hlen, hreads⟩ :=
      completesOk_start hf h0 (fun _ => hend) (fun c hc => exec_bulkRead_inRange hc h0 hend) hextra.symm hin
        fun u hu => hu.completesOk_bulk hp
    exact ⟨t, issued, hc, hok, by simpa using hdata, hrest, hbus, hlen, hreads⟩
  case page =>
    rw [Nat.add_comm 1 extra] at hin ⊢
    obtain ⟨t, issued, hc, hok, hdata, hrest, hbus, hlen, hreads⟩ :=
      completesOk_start (m := .page) (k := 0) hf h0 nofun (fun c hc => exec_pageRead_pos hc h0) hextra.symm
        (by simpa [Nat.add_comm] using hin) fun u hu => hu.completesOk_page
    rw [clampLen_toNat] at hdata
    rw [Nat.zero_add, Nat.add_comm 1 extra] at hc hlen
    exact ⟨t, issued, hc, hok, hrest, hdata, hbus, hlen, hreads⟩

/-! ### Single-page reads with the device where it happens to be (70_reset_and_hazards.md R139, R140) -/

section SinglePage

variable {s : State} {off : BitVec 10} {cnt : BitVec 11} {k : Nat} {rest : List Input}

/-- The window read of a PAGE_READ, answered by the window law: the bytes are those of page DEV_PAGE. -/
theorem Sequenced.step_page_answer (hs : Sequenced s) (hf : s.fsm = .rdWait) (hm : s.mode = .page)
    (halone : s.interleaved = false) (hin : s.inputs = answerInput s.bus.length (.ok k) :: rest) :
    ∃ t, step s = .next t ∧ t.rspValid = true ∧ t.rspStatus = 0 ∧ t.bus = s.bus
      ∧ t.rspData = Memory.slice s.mem (128 * s.devPage.toNat + s.off.toNat % 128) (min k s.n.toNat) := by
  have hc := consume_answerInput hin
  have hstep := hs.step_read_window hf (answered_answerInput hin) (by rw [hc]; exact halone)
  have hbytes := windowBytes_winAddr s.consume s.off (min k s.n.toNat)
  rw [consume_cfg] at hbytes
  rw [hbytes, onReadOk_page (by rw [consume_mode, hm]) (by simp), hc] at hstep
  exact ⟨_, hstep, rfl, rfl, rfl, rfl⟩

/-- A PAGE_READ of the page the cache names reads at once, from whatever page the device is on. -/
theorem run_pageRead_cached (hf : s.fsm = .idle) (h0 : cnt ≠ 0) (hnames : s.cpNames (pageOf off) = true)
    (hin : s.inputs = commandInput (.pageRead off cnt) :: answerInput (s.bus.length + 1) (.ok k) :: rest) :
    ∃ t, run 2 s = .next t ∧ t.rspValid = true ∧ t.rspStatus = 0
      ∧ t.rspData = Memory.slice s.mem (128 * s.devPage.toNat + off.toNat % 128)
          (min k (min cnt.toNat (128 - off.toNat % 128)))
      ∧ t.bus = winReadRequest s.cfg off (clampLen off cnt) :: s.bus := by
  have hstep := step_commandInput hf hin
  rw [exec_pageRead_pos (by exact hf) h0] at hstep
  have hseq := sequenced_startRead (m := .page) h0 off { s with
    inputs := answerInput (s.bus.length + 1) (.ok k) :: rest, rspValid := false } nofun
  rw [startRead_of_names .page (by exact hnames)] at hstep hseq
  obtain ⟨t, ht, hv, hok, hbus, hdata⟩ := hseq.step_page_answer (k := k) (rest := rest) rfl rfl rfl rfl
  refine ⟨t, (run_next hstep).trans ((run_next ht).trans (run_zero t)), hv, hok, ?_, hbus⟩
  rw [← clampLen_toNat]
  exact hdata

/-- A PAGE_READ of any other page selects it first, so its bytes are those of L. -/
theorem run_pageRead_uncached (hf : s.fsm = .idle) (h0 : cnt ≠ 0) (hmiss : s.cpNames (pageOf off) = false)
    (hin : s.inputs = commandInput (.pageRead off cnt) :: answerInput (s.bus.length + 1) (.ok k)
      :: answerInput (s.bus.length + 2) (.ok k) :: rest) :
    ∃ t, run 3 s = .next t ∧ t.rspValid = true ∧ t.rspStatus = 0
      ∧ t.rspData = Memory.slice s.mem off.toNat (min k (min cnt.toNat (128 - off.toNat % 128)))
      ∧ t.bus = winReadRequest s.cfg off (clampLen off cnt) :: pageSelRequest s.cfg (pageOf off) :: s.bus := by
  have hstart := step_commandInput hf hin
  rw [exec_pageRead_pos (by exact hf) h0] at hstart
  have hseq := sequenced_startRead (m := .page) h0 off { s with
    inputs := answerInput (s.bus.length + 1) (.ok k) :: answerInput (s.bus.length + 2) (.ok k) :: rest,
    rspValid := false } nofun
  rw [startRead_of_not_names .page (by exact hmiss)] at hstart hseq
  have hselect := hseq.step_select_ok rfl (answered_answerInput (ans := .ok k) rfl) (by simp)
  have hseq' := hseq.keep (hseq.event hselect)
  rw [consume_answerInput rfl] at hselect hseq'
  obtain ⟨t, ht, hv, hok, hbus, hdata⟩ := hseq'.step_page_answer (k := k) (rest := rest) rfl rfl rfl rfl
  refine ⟨t, (run_next hstart).trans ((run_next hselect).trans ((run_next ht).trans (run_zero t))), hv, hok, ?_, hbus⟩
  have hpage : 128 * (pageOf off).toNat + off.toNat % 128 = off.toNat := by rw [pageOf_toNat]; omega
  rw [← clampLen_toNat, ← hpage]
  exact hdata

/-- In IDLE an out-of-band action moves the device, and nothing else happens. -/
theorem step_outOfBand_idle {d : BitVec 3} (hf : s.fsm = .idle)
    (hin : s.inputs = { outOfBand := true, pageDraw := d } :: rest) :
    step s = .next { s with inputs := rest, rspValid := false, devPage := d } := by
  have hhead := headInput_of_inputs hin
  have hlock : ¬ s.busLock = true := by simp [busLock_of_idle hf]
  have hstray := (strayAnswersAreIgnored s (by rw [hhead]) (fun _ => by rw [hhead]) (fun hb => absurd hb hlock)).1
  rw [hstray, consume_of_inputs hin, actOutOfBand, if_pos rfl, if_neg (by exact hlock)]

end SinglePage

/-- Settles O57: the out-of-band action leaves the cache naming the page of `off`, so the read takes the
device's page; after INVALIDATE the cache names nothing, and the read selects. -/
theorem staleCacheReadsTheWrongPage : Obligations.StaleCacheReadsTheWrongPage := by
  intro s off cnt d k rest hf h0 hvalid hpage
  have hnames : s.cpNames (pageOf off) = true := (cpNames_iff s _).mpr ⟨hvalid, hpage⟩
  refine ⟨fun hin => ?stale, fun hin => ?invalidated⟩
  case stale =>
    rw [run_next (step_outOfBand_idle hf hin)]
    exact run_pageRead_cached (by exact hf) h0 (by exact hnames) rfl
  case invalidated =>
    rw [run_next (step_outOfBand_idle hf hin),
      run_next ((step_commandInput (by exact hf) rfl).trans (exec_invalidate_idle (by exact hf)))]
    exact run_pageRead_uncached rfl h0 (cpNames_of_invalid rfl _) rfl

/-- Settles O58: the failed select writes neither part of the cache, so the read of the old page takes the
page the device was moved to. -/
theorem failedSelectMayMislead : Obligations.FailedSelectMayMislead := by
  intro s off off' cnt cnt' d e k rest hf h0 h0' hvalid hpage hother hin
  have hnames : s.cpNames (pageOf off) = true := (cpNames_iff s _).mpr ⟨hvalid, hpage⟩
  have hmiss : s.cpNames (pageOf off') = false := by simp [State.cpNames, hvalid, hpage, hother.symm]
  have hstart := step_commandInput hf hin
  rw [exec_pageRead_pos (by exact hf) h0'] at hstart
  have hseq := sequenced_startRead (m := .page) h0' off' { s with
    inputs := { resp := some (s.bus.length + 1, .err e), pageDraw := d } :: commandInput (.pageRead off cnt)
      :: answerInput (s.bus.length + 2) (.ok k) :: rest, rspValid := false } nofun
  rw [startRead_of_not_names .page (by exact hmiss)] at hstart hseq
  have hfail := hseq.step_select_err rfl ⟨rfl, rfl⟩
  rw [consume_quiet rfl] at hfail
  have hrun := (run_next (m := 1) hstart).trans ((run_next hfail).trans (run_zero _))
  refine ⟨⟨_, hrun, rfl, rfl, hvalid, rfl, rfl⟩, ?_⟩
  have hread : ∃ u, run (2 + 2) s = .next u ∧ u.rspValid = true ∧ u.rspStatus = 0
      ∧ u.rspData = Memory.slice s.mem (128 * d.toNat + off.toNat % 128) (min k (min cnt.toNat (128 - off.toNat % 128)))
      ∧ u.bus = winReadRequest s.cfg off (clampLen off cnt) :: pageSelRequest s.cfg (pageOf off') :: s.bus := by
    rw [run_add hrun]
    exact run_pageRead_cached rfl h0 (by exact hnames) rfl
  obtain ⟨u, hu, hv, hok, hdata, -⟩ := hread
  exact ⟨u, hu, hv, hok, hdata⟩

end Sys2Proof.Machine
